-- ==== Sys2Proof/Word.lean ====
section
/-! DEFINITION. The word types of CORE: the 11-bit command word (30_encoding.md R80), the 8-bit byte of `SR`, of the
Shift Byte and of the response, the 6-bit Output State Word (R110), and a vector of one bit per pin (R50). -/

namespace Sys2Proof

/-- A command word, `{op[2:0], data[7:0]}` (30_encoding.md R80). -/
abbrev CmdWord := BitVec 11

/-- The Shift Byte, the register `SR` and the response are bytes (R23, R38, R120). -/
abbrev Byte := BitVec 8

/-- The Output State Word (41_state_port.md R110). -/
abbrev StateWord := BitVec 6

/-- One bit for each pin of the pin space, entry `p` being pin `p` (20_memory.md R50, R56). -/
abbrev Levels := List Bool

/-- The vector of `n` pin bits whose bit `p` is bit `p` of the number `v` (the spec writes pin vectors as numbers, R56). -/
def Levels.ofNat (n v : Nat) : Levels := (List.range n).map v.testBit

/-- Bit `p` of a pin vector. Pins of a valid configuration lie inside the vector; outside it the bit is 0. -/
def Levels.at (v : Levels) (p : Nat) : Bool := v.getD p false

/-- Bitwise OR of two pin vectors of one length (40_initializer.md R100, step 5). -/
def Levels.or (a b : Levels) : Levels := a.zipWith (· || ·) b

end Sys2Proof
end

