-- ==== Sys2Proof/Syntax.lean ====
section
/-! DEFINITION. The command set: exactly five commands (00_scope.md R2, 30_encoding.md R83), one constructor for each row of
spec/opcode_table.json, with the operand the spec gives it (R81, R82). -/

namespace Sys2Proof

/-- A command of CORE. -/
inductive Instr where
  /-- `INIT`, no operand (40_initializer.md R100). -/
  | init
  /-- `SETOUT w` (41_state_port.md R111). -/
  | setout (w : StateWord)
  /-- `SETRD w` (41_state_port.md R114). -/
  | setrd (w : StateWord)
  /-- `SHOUT b` (42_shift_engine.md R121). -/
  | shout (b : Byte)
  /-- `SHIO b` (42_shift_engine.md R125). -/
  | shio (b : Byte)
deriving DecidableEq, Repr

end Sys2Proof
end

