-- ==== Sys2Proof/WellFormed.lean ====
section
/-! DEFINITION. Well-formedness of a written command (30_encoding.md R91): operands are numbers, and one out of its range is
an assembly error. An `Instr` holds its operand in the operand's own width, so every `Instr` is well formed. The other
well-formedness check of the spec, the validity of a configuration (R55), is `Sys2Proof.valid` in Machine/SignalMap.lean. -/

namespace Sys2Proof

/-- One line of assembler text, mnemonic and number (30_encoding.md R91). -/
inductive AsmLine where
  | init
  | setout (n : Nat)
  | setrd (n : Nat)
  | shout (n : Nat)
  | shio (n : Nat)
deriving DecidableEq, Repr

/-- The operand ranges of R91: `SETOUT`, `SETRD` 0 to 0x3F; `SHOUT`, `SHIO` 0 to 0xFF. -/
def AsmLine.wellFormed : AsmLine → Bool
  | .init => true
  | .setout n => n ≤ 0x3F
  | .setrd n => n ≤ 0x3F
  | .shout n => n ≤ 0xFF
  | .shio n => n ≤ 0xFF

/-- The line that writes a command down. -/
def AsmLine.ofInstr : Instr → AsmLine
  | .init => .init
  | .setout w => .setout w.toNat
  | .setrd w => .setrd w.toNat
  | .shout b => .shout b.toNat
  | .shio b => .shio b.toNat

/-- A command is well formed when the line that writes it is. -/
def Instr.wellFormed (i : Instr) : Bool := (AsmLine.ofInstr i).wellFormed

end Sys2Proof
end

