-- ==== Sys2Proof/Decode.lean ====
section
/-! DEFINITION. The decoder, total on all 2048 command words (30_encoding.md R83, R88, R89); after it the encoder, which
gives the canonical word of a command (R84 to R87), and the assembler (R91). -/

namespace Sys2Proof

/-- What the decoder answers: a command, or the name of why there is none. -/
inductive Decoded where
  /-- The word is a command. -/
  | command (i : Instr)
  /-- The operation field holds one of the reserved values 5, 6, 7 (30_encoding.md R88). -/
  | reservedOp (op : BitVec 3)
deriving DecidableEq, Repr

/-- The operation field, `cmd[10:8]` (R80). -/
def opOf (cmd : CmdWord) : BitVec 3 := cmd.extractLsb' 8 3

/-- The data field, `cmd[7:0]` (R80); in format B it is the Shift Byte (R81, R82). -/
def dataOf (cmd : CmdWord) : Byte := cmd.extractLsb' 0 8

/-- The operand of format W, `w = cmd[5:0]`; `cmd[7:6]` is ignored (R81, R82, R89). -/
def stateWordOf (cmd : CmdWord) : StateWord := cmd.extractLsb' 0 6

/-- The decoder (R83). -/
def decode (cmd : CmdWord) : Decoded :=
  match (opOf cmd).toNat with
  | 0 => .command .init
  | 1 => .command (.setout (stateWordOf cmd))
  | 2 => .command (.setrd (stateWordOf cmd))
  | 3 => .command (.shout (dataOf cmd))
  | 4 => .command (.shio (dataOf cmd))
  | _ => .reservedOp (opOf cmd)

/-- The command a word decodes to, if any. -/
def Decoded.instr? : Decoded → Option Instr
  | .command i => some i
  | .reservedOp _ => none

/-- The operation value of a command (R83). -/
def opcode : Instr → BitVec 3
  | .init => 0b000#3
  | .setout _ => 0b001#3
  | .setrd _ => 0b010#3
  | .shout _ => 0b011#3
  | .shio _ => 0b100#3

/-- The data field of a command's canonical word: the ignored bits are 0 (R84 to R87, R89). -/
def dataField : Instr → Byte
  | .init => 0x00#8
  | .setout w => 0b00#2 ++ w
  | .setrd w => 0b00#2 ++ w
  | .shout b => b
  | .shio b => b

/-- The encoder: the canonical word `{op, data}` (R80, R84 to R87). -/
def encode (i : Instr) : CmdWord := opcode i ++ dataField i

/-- The command an assembler line stands for; an operand out of range is an assembly error (R91). -/
def AsmLine.instr? (l : AsmLine) : Option Instr :=
  if l.wellFormed then
    match l with
    | .init => some .init
    | .setout n => some (.setout (BitVec.ofNat 6 n))
    | .setrd n => some (.setrd (BitVec.ofNat 6 n))
    | .shout n => some (.shout (BitVec.ofNat 8 n))
    | .shio n => some (.shio (BitVec.ofNat 8 n))
  else none

/-- The assembler: it emits the canonical word (R91). -/
def assemble (l : AsmLine) : Option CmdWord := l.instr?.map encode

/-- The command word held in the low `nbits` bits of `w`, if it fits the 11-bit port: a word has exactly 11 bits (R80), so
the bits the table's whole bytes add above bit 10 are 0 (log 24). -/
def portWord (nbits w : Nat) : Option CmdWord :=
  if w % 2 ^ nbits < 2 ^ 11 then some (BitVec.ofNat 11 (w % 2 ^ nbits)) else none

/-- The instruction the decoder reads from a table word. -/
def decodeTableWord (nbits w : Nat) : Option Instr :=
  match portWord nbits w with
  | some cmd => (decode cmd).instr?
  | none => none

end Sys2Proof
end

