-- ==== Sys2Proof/Config.lean ====
section
/-! DEFINITION. What is fixed when CORE is built (00_scope.md R6, R7): the configuration record `CFG`; the values the
spec leaves unspecified after reset (10_state.md R41); and the free values, which have no body, so that no proof can see
what they are. -/

namespace Sys2Proof

/-- The nine logical signals (20_memory.md R51). -/
inductive Signal where
  | tck | tms | nce | ncs | tdi | oeLed | jtagEn | tdo | asdo
deriving DecidableEq, Repr

/-- The binding of the signals to pin numbers, total also for absent signals (20_memory.md R54). -/
structure PinMap where
  tck : Nat
  tms : Nat
  nce : Nat
  ncs : Nat
  tdi : Nat
  oeLed : Nat
  tdo : Nat
  asdo : Nat
  jtagEn : Nat
deriving DecidableEq, Repr

/-- The default binding of R54 (the spec's own; not the pin-out of any board). -/
def PinMap.reference : PinMap :=
  { tck := 0, tms := 1, nce := 2, ncs := 3, tdi := 4, oeLed := 5, tdo := 6, asdo := 7, jtagEn := 8 }

/-- The configuration record `CFG` (00_scope.md R7). The durations are counted in one unit the spec does not name; no step
reads them (R130, log 21). `outReset` lists `OUT_RESET` pin by pin; a pin past its end resets to 0 (log 27). -/
structure Cfg where
  haveAs : Bool
  havePs : Bool
  haveLed : Bool
  npins : Nat
  pinmap : PinMap
  outReset : Levels
  tStep : Nat
  tHighMin : Nat
  tLowMin : Nat
deriving DecidableEq, Repr

/-- A configuration with the default pin space of R54 (`NPINS = 9`), the three flags and `OUT_RESET` given. -/
def Cfg.reference (haveAs havePs haveLed : Bool) (outReset : Levels) : Cfg :=
  { haveAs, havePs, haveLed, npins := 9, pinmap := PinMap.reference, outReset, tStep := 1, tHighMin := 2, tLowMin := 2 }

/-- The registers whose value after reset the spec leaves unspecified, apart from `OUT` (10_state.md R41). -/
structure PowerOn where
  clkcfg : BitVec 2
  busmode : BitVec 3
  vregctl : BitVec 1
  cmd : CmdWord
  sr : Byte
  c : Bool
  fbsel : Bool
deriving DecidableEq, Repr

/-- All of them 0 (log 4, DESIGN CHOICE). -/
def PowerOn.zero : PowerOn :=
  { clkcfg := 0, busmode := 0, vregctl := 0, cmd := 0, sr := 0, c := false, fbsel := false }

/-- FREE VALUE: the level read from an input pin nothing drives, by the number of the draw (20_memory.md R58: "an
arbitrary bit, a fresh draw at every read"; log 8). -/
opaque Config.floatLevel : Nat → Bool

/-- FREE VALUE: `CLKCFG` after an `rst` inside a run, by the number of the draw (R41; log 5). -/
opaque Config.freeClkcfg : Nat → BitVec 2

/-- FREE VALUE: `BUSMODE` after an `rst` inside a run (R41; log 5). -/
opaque Config.freeBusmode : Nat → BitVec 3

/-- FREE VALUE: `VREGCTL` after an `rst` inside a run (R41; log 5). -/
opaque Config.freeVregctl : Nat → BitVec 1

/-- FREE VALUE: `CMD` after an `rst` inside a run (R41; log 5). -/
opaque Config.freeCmd : Nat → CmdWord

/-- FREE VALUE: `SR` after an `rst` inside a run (R41; log 5). -/
opaque Config.freeSr : Nat → Byte

/-- FREE VALUE: `C` after an `rst` inside a run (R41; log 5). -/
opaque Config.freeC : Nat → Bool

/-- FREE VALUE: `FBSEL` after an `rst` inside a run (R41; log 5). -/
opaque Config.freeFbsel : Nat → Bool

/-- The unspecified registers after the `rst` that takes draw `d`. -/
def PowerOn.free (d : Nat) : PowerOn :=
  { clkcfg := Config.freeClkcfg d, busmode := Config.freeBusmode d, vregctl := Config.freeVregctl d,
    cmd := Config.freeCmd d, sr := Config.freeSr d, c := Config.freeC d, fbsel := Config.freeFbsel d }

end Sys2Proof
end

