-- ==== Sys2Proof/Machine/SignalMap.lean ====
section
/-! DEFINITION. The Signal Map (20_memory.md section 2): which signals exist, which pin each is bound to, the validity of a
configuration, and the masks. All of it is computed from `CFG` and none of it is state (10_state.md R31). -/

namespace Sys2Proof

/-- The nine signals. -/
def allSignals : List Signal := [.tck, .tms, .nce, .ncs, .tdi, .oeLed, .jtagEn, .tdo, .asdo]

/-- `direction(s) = output` (R51). -/
def isOutput : Signal → Bool
  | .tck | .tms | .nce | .ncs | .tdi | .oeLed | .jtagEn => true
  | .tdo | .asdo => false

/-- `exists(s)` (R52): a function of the three feature flags only. -/
def sigExists (cfg : Cfg) : Signal → Bool
  | .tck | .tdi | .tms | .jtagEn | .tdo => true
  | .nce | .ncs => cfg.haveAs
  | .asdo => cfg.haveAs || cfg.havePs
  | .oeLed => cfg.haveLed

/-- `pin(s) = PINMAP(s)` (R54). -/
def pin (cfg : Cfg) : Signal → Nat
  | .tck => cfg.pinmap.tck
  | .tms => cfg.pinmap.tms
  | .nce => cfg.pinmap.nce
  | .ncs => cfg.pinmap.ncs
  | .tdi => cfg.pinmap.tdi
  | .oeLed => cfg.pinmap.oeLed
  | .tdo => cfg.pinmap.tdo
  | .asdo => cfg.pinmap.asdo
  | .jtagEn => cfg.pinmap.jtagEn

/-- R55 (a): every existing signal's pin lies in the pin space. -/
def pinsInRange (cfg : Cfg) : Bool :=
  allSignals.all fun s => !sigExists cfg s || decide (pin cfg s < cfg.npins)

/-- R55 (b): two distinct existing signals have distinct pins ("one owner per physical pin"). -/
def oneOwnerPerPin (cfg : Cfg) : Bool :=
  allSignals.all fun s => allSignals.all fun t =>
    decide (s = t) || !(sigExists cfg s && sigExists cfg t) || decide (pin cfg s ≠ pin cfg t)

/-- The validity of a configuration (R55). -/
def valid (cfg : Cfg) : Bool := pinsInRange cfg && oneOwnerPerPin cfg

/-- The pin vector with a 1 exactly at the pins `p` for which `f p`. -/
def maskOf (cfg : Cfg) (f : Nat → Bool) : Levels := (List.range cfg.npins).map f

/-- `OUT_MASK` (R56). -/
def outMask (cfg : Cfg) : Levels :=
  maskOf cfg fun p => allSignals.any fun s => sigExists cfg s && isOutput s && decide (pin cfg s = p)

/-- `IN_MASK` (R56). -/
def inMask (cfg : Cfg) : Levels :=
  maskOf cfg fun p => allSignals.any fun s => sigExists cfg s && !isOutput s && decide (pin cfg s = p)

/-- `JTAG_MIN_MASK` (R56). -/
def jtagMinMask (cfg : Cfg) : Levels :=
  maskOf cfg fun p => [Signal.tdi, .tck, .tms, .jtagEn].any fun s => decide (pin cfg s = p)

end Sys2Proof
end

