-- ==== Sys2Proof/Machine/State.lean ====
section
/-! DEFINITION. The state of CORE as plain data (10_state.md R20): the pin registers, the platform control registers, the
sequencer's registers, the response port; beside them the configuration (constant) and what the outside world will do
(inputs, R31). Every field has a line in INVENTORY.md. -/

namespace Sys2Proof.Machine

/-- CORE's one address space, the pin space: NPINS one-bit cells (20_memory.md R50). A cell's facets are the output latch
`OUT[p]` (R21) and the direction bit `OE[p]` (R22); the third, `Level(p)`, is read (R58). Both vectors have exactly NPINS
entries, which is the canonical form (log 6). -/
structure Memory where
  out : Levels
  oe : Levels
deriving DecidableEq, Repr

/-- The canonical form: one entry for each pin. -/
abbrev Memory.wf (npins : Nat) (m : Memory) : Prop := m.out.length = npins ∧ m.oe.length = npins

/-- What the outside applies at one clock edge (10_state.md R40): the reset port, and at each pin the level the environment
drives, or `none` where it drives nothing (20_memory.md R58). Pins past the end of the list are not driven. -/
structure EdgeInput where
  rst : Bool
  ext : List (Option Bool)
deriving DecidableEq, Repr

/-- Nothing driven, no reset: what the outside applies once its script has ended (log 7). -/
def EdgeInput.quiet : EdgeInput := { rst := false, ext := [] }

/-- The machine. -/
structure State where
  /-- The configuration record `CFG`, constant (00_scope.md R6, R7; log 1). -/
  cfg : Cfg
  /-- `OUT` and `OE` (10_state.md R21, R22). -/
  mem : Memory
  /-- `CLKCFG` (R27): bit 0 `FULL`, bit 1 `CLKOUT`. -/
  clkcfg : BitVec 2
  /-- `BUSMODE` (R28): bit 0 `SYNC`, bit 1 `EXTCLK`, bit 2 `DIRECT`. -/
  busmode : BitVec 3
  /-- `VREGCTL` (R29): bit 0 `DISC`. -/
  vregctl : BitVec 1
  /-- `BUSY` (R33). -/
  busy : Bool
  /-- `CMD` (R35). -/
  cmd : CmdWord
  /-- `upc`, the program counter (R34). -/
  upc : BitVec 6
  /-- `SR` (R23). -/
  sr : Byte
  /-- `C` (R24). -/
  c : Bool
  /-- `FBSEL` (R25). -/
  fbsel : Bool
  /-- The response port: `rsp_valid` and `rsp` (R38, R40). -/
  rsp : Option Byte
  /-- The command words the host will present, oldest first (R37; log 12). -/
  cmds : List CmdWord
  /-- What the outside will apply, one entry for each clock edge, the next one first (R10, R40; log 7). -/
  env : List EdgeInput
  /-- How many free values have been drawn (log 8). -/
  draws : Nat
deriving DecidableEq, Repr

/-- Faults: none. CORE raises no exception and no step of it faults (60_exceptions.md R150), so the type is empty. -/
inductive Fault where
deriving DecidableEq, Repr

/-- What the spec says a model gives no meaning to. Each is safe: a run that meets one has no claim made about it. -/
inductive Refusal where
  /-- The instruction has no meaning yet; raised by `exec` only. Safe. -/
  | notModelled (mnemonic : String)
  /-- The configuration is not valid (00_scope.md R8, 20_memory.md R55); raised at every clock edge. Safe. -/
  | invalidConfiguration
  /-- The environment drives a pin CORE drives (20_memory.md R58, 70_reset_and_hazards.md R180); raised at the clock edge
  where it does. Safe. -/
  | contention
  /-- A reserved command word (30_encoding.md R88); raised when the host presents one. Safe. -/
  | reservedCommand
  /-- A command other than `INIT` while `Initialised` is false (70_reset_and_hazards.md R171); raised at acceptance. Safe. -/
  | notInitialised
  /-- A command executed while `BUSY = 1`, which the handshake rules out (10_state.md R37); raised by `exec`, never by
  `step` (log 23). Safe. -/
  | commandWhileBusy
  /-- `BUSY = 1` with `upc` outside the running command's micro-program, which no run reaches (10_state.md R34; log 18).
  Safe. -/
  | noMicroStep
deriving DecidableEq, Repr

/-- The state after reset (10_state.md R41, 70_reset_and_hazards.md R170), for a configuration and for any values of the
registers the spec leaves unspecified. -/
def State.resetOf (cfg : Cfg) (u : PowerOn) : State :=
  { cfg := cfg
    mem := { out := (List.range cfg.npins).map cfg.outReset.at, oe := List.replicate cfg.npins false }
    clkcfg := u.clkcfg
    busmode := u.busmode
    vregctl := u.vregctl
    busy := false
    cmd := u.cmd
    upc := 0
    sr := u.sr
    c := u.c
    fbsel := u.fbsel
    rsp := none
    cmds := []
    env := []
    draws := 0 }

/-- The machine right after reset: R41, with every flag set and the default pin space (log 2), `OUT_RESET` 0 (log 3) and
the unspecified registers 0 (log 4). -/
def State.reset : State := State.resetOf (Cfg.reference true true true []) PowerOn.zero

end Sys2Proof.Machine
end

