-- ==== Sys2Proof/Machine/Ops.lean ====
section
/-! DEFINITION. The named operations over the pin space and the registers: reading and writing a pin (20_memory.md R58,
R59) and a signal (R60, R61), reset as an event (10_state.md R41), and what every clock edge begins with. CORE takes no
exception and returns from none (60_exceptions.md R150, R155, R156), so no operation for either exists; reset, the one
event that ends a command early (R153), stands in that place. -/

namespace Sys2Proof.Machine

/-- The outcome of a step of this machine. -/
abbrev Result := Host.Outcome State Fault Refusal

/-- `MemRead(p, 1)` at a clock edge, the level of pin `p` (R58, R59): the latch where CORE drives the pin, else what the
environment applies, else a free value. The state changes only in the count of free values drawn. -/
def memRead (e : EdgeInput) (p : Nat) (s : State) : Bool × State :=
  if s.mem.oe.at p then (s.mem.out.at p, s)
  else
    match e.ext.getD p none with
    | some v => (v, s)
    | none => (Config.floatLevel s.draws, { s with draws := s.draws + 1 })

/-- `MemWrite(p, 1, v)`: `OUT[p] <- v` and nothing else (R59). -/
def memWrite (p : Nat) (v : Bool) (s : State) : State :=
  { s with mem := { s.mem with out := s.mem.out.set p v } }

/-- `SigRead(s)` (R60): an absent signal reads as the constant 1 and no pin is touched (R53). -/
def sigRead (e : EdgeInput) (g : Signal) (s : State) : Bool × State :=
  if sigExists s.cfg g then memRead e (pin s.cfg g) s else (true, s)

/-- `SigWrite(s, v)` (R61): a write to an absent signal does nothing (R53). -/
def sigWrite (g : Signal) (v : Bool) (s : State) : State :=
  if sigExists s.cfg g then memWrite (pin s.cfg g) v s else s

/-- `OE <- v`, all NPINS bits at once (40_initializer.md R100, step 3). -/
def setDirections (v : Levels) (s : State) : State := { s with mem := { s.mem with oe := v } }

/-- The predicate `Initialised` (10_state.md R30): a function of the persistent registers, not a register. -/
def initialised (s : State) : Bool :=
  decide (s.mem.oe = outMask s.cfg) && decide (s.clkcfg = 0b11#2) && decide (s.busmode = 0b111#3) &&
    decide (s.vregctl = 1#1)

/-- The environment drives a pin that CORE drives (R58: contention). -/
def contends (oe : Levels) (e : EdgeInput) : Bool :=
  (oe.zip e.ext).any fun x => x.1 && x.2.isSome

/-- What the outside applies `k` clock edges from now, 0 being the next edge. -/
def inputAt (s : State) (k : Nat) : EdgeInput := s.env.getD k EdgeInput.quiet

/-- One clock edge has passed: the outside's script moves on, and a response stood for that one cycle (10_state.md R40). -/
def passEdge (s : State) : State := { s with env := s.env.tail, rsp := none }

/-- Reset as an event (10_state.md R41, 70_reset_and_hazards.md R170): every register takes its reset value, the unspecified
ones a free value; what runs is abandoned without a response. The configuration and the outside's future stay. -/
def resetEvent (s : State) : State :=
  { State.resetOf s.cfg (PowerOn.free s.draws) with cmds := s.cmds, env := s.env.tail, draws := s.draws + 1 }

/-- One clock edge: a model refuses an invalid configuration (R8, R55) and contention (R58, R180); `rst` wins over whatever
else would happen (60_exceptions.md R154); otherwise `act` happens, with the edge's input. -/
def atEdge (s : State) (act : EdgeInput → State → Result) : Result :=
  if valid s.cfg then
    if contends s.mem.oe (inputAt s 0) then .refused .contention
    else if (inputAt s 0).rst then .next (resetEvent s)
    else act (inputAt s 0) (passEdge s)
  else .refused .invalidConfiguration

end Sys2Proof.Machine
end

