-- ==== Sys2Proof/Machine/Operands.lean ====
section
/-! DEFINITION. Operands and results: the command word's bits, the packing of the Input State Word and of the response
(30_encoding.md R82, 41_state_port.md R113), and the only arithmetic of CORE, the shift of `SR` (42_shift_engine.md R131). -/

namespace Sys2Proof.Machine

/-- `CMD[k]`: for `k` up to 5, bit `k` of the Output State Word (R81, R110), with no inversion. -/
def cmdBit (cmd : CmdWord) (k : Nat) : Bool := cmd.getLsbD k

/-- `SR <- {x, SR[7:1]}`: the logical right shift by one with `x` entering at bit 7 (R131). -/
def shiftIn (x : Bool) (sr : Byte) : Byte := BitVec.ofBool x ++ sr.extractLsb' 1 7

/-- `SR[k] <- v`: one bit of `SR` written, the others kept (R114). -/
def putBit (k : Nat) (v : Bool) (sr : Byte) : Byte :=
  (sr &&& ~~~(1#8 <<< k)) ||| ((BitVec.ofBool v).setWidth 8 <<< k)

/-- `zext_8(SR[1:0])`, the response of `SETRD` (10_state.md R38). -/
def inputWordResponse (sr : Byte) : Byte := (sr.extractLsb' 0 2).setWidth 8

end Sys2Proof.Machine
end

