-- ==== Sys2Proof/Machine/Flags.lean ====
section
/-! DEFINITION. CORE has no status flags and no condition codes (10_state.md R25). Its only predicate is `FBSEL`, computed
here from the level of nCS (43_mode_dispatcher.md R140), and the signal it selects (42_shift_engine.md R125). -/

namespace Sys2Proof.Machine

/-- `FBSEL` from the level read on `NCS`: 1 (ASDO) iff nCS is asserted, that is 0 (R140). -/
def fbselOf (ncsLevel : Bool) : Bool := !ncsLevel

/-- `FB`: the feedback signal the sample micro-steps read, ASDO if `FBSEL = 1`, TDO if `FBSEL = 0` (R125). -/
def feedbackSignal (fbsel : Bool) : Signal := if fbsel then .asdo else .tdo

end Sys2Proof.Machine
end

