-- ==== Sys2Proof/Machine/Micro.lean ====
section
/-! DEFINITION. The micro-steps (10_state.md R36): each is one register write, one `SigWrite`, or one `SigRead` with its
capture, and `perform` does that one action. -/

namespace Sys2Proof.Machine

/-- A micro-step of a micro-program. -/
inductive Micro where
  /-- `CLKCFG <- v` (R100, step 1). -/
  | writeClkcfg (v : BitVec 2)
  /-- `BUSMODE <- v` (R100, step 2). -/
  | writeBusmode (v : BitVec 3)
  /-- `OE <- OUT_MASK` (R100, step 3). -/
  | assignOe
  /-- `VREGCTL <- v` (R100, step 4). -/
  | writeVregctl (v : BitVec 1)
  /-- `OE <- OE or JTAG_MIN_MASK` (R100, step 5). -/
  | orOe
  /-- `SigWrite(g, CMD[k])` (R111). -/
  | writeCmdBit (g : Signal) (k : Nat)
  /-- `SR[k] <- SigRead(g)` (R114). -/
  | sampleInto (g : Signal) (k : Nat)
  /-- `SigWrite(g, SR[0])` (R121, R125). -/
  | presentBit (g : Signal)
  /-- `SigWrite(g, v)` with a constant (R121, R125). -/
  | writeLevel (g : Signal) (v : Bool)
  /-- `SR <- {0, SR[7:1]}` (R121). -/
  | shiftZero
  /-- `SR <- {C, SR[7:1]}` (R125). -/
  | shiftCapture
  /-- No state change (R121). -/
  | settle
  /-- `FBSEL <- (SigRead(NCS) = 0)` (R140). -/
  | dispatch
  /-- `C <- SigRead(FB)` (R125). -/
  | sampleFeedback
deriving DecidableEq, Repr

/-- The one action of a micro-step, at a clock edge with input `e`. -/
def perform (m : Micro) (e : EdgeInput) (s : State) : State :=
  match m with
  | .writeClkcfg v => { s with clkcfg := v }
  | .writeBusmode v => { s with busmode := v }
  | .assignOe => setDirections (outMask s.cfg) s
  | .writeVregctl v => { s with vregctl := v }
  | .orOe => setDirections (s.mem.oe.or (jtagMinMask s.cfg)) s
  | .writeCmdBit g k => sigWrite g (cmdBit s.cmd k) s
  | .sampleInto g k => let r := sigRead e g s; { r.2 with sr := putBit k r.1 s.sr }
  | .presentBit g => sigWrite g (s.sr.getLsbD 0) s
  | .writeLevel g v => sigWrite g v s
  | .shiftZero => { s with sr := shiftIn false s.sr }
  | .shiftCapture => { s with sr := shiftIn s.c s.sr }
  | .settle => s
  | .dispatch => let r := sigRead e .ncs s; { r.2 with fbsel := fbselOf r.1 }
  | .sampleFeedback => let r := sigRead e (feedbackSignal s.fbsel) s; { r.2 with c := r.1 }

end Sys2Proof.Machine
end

