-- ==== Sys2Proof/Machine/MicroPrograms.lean ====
section
/-! DEFINITION. The micro-program of each command, `MP(cmd, CFG)` (10_state.md R34). The operand is read from `CMD` and
`SR` by the micro-steps, so a program depends on the command and the feature flags only. -/

namespace Sys2Proof.Machine

/-- `INIT`: five micro-steps, in this order (40_initializer.md R100). -/
def initProgram : List Micro :=
  [.writeClkcfg 0b11#2, .writeBusmode 0b111#3, .assignOe, .writeVregctl 1#1, .orOe]

/-- `SETOUT`: one write for each existing signal, in ascending bit order (41_state_port.md R111). -/
def setoutProgram (cfg : Cfg) : List Micro :=
  [.writeCmdBit .tck 0, .writeCmdBit .tms 1] ++
  (if cfg.haveAs then [.writeCmdBit .nce 2, .writeCmdBit .ncs 3] else []) ++
  [.writeCmdBit .tdi 4] ++
  (if cfg.haveLed then [.writeCmdBit .oeLed 5] else [])

/-- `SETRD`: the micro-program of `SETOUT`, then the samples of TDO and ASDO (R114). -/
def setrdProgram (cfg : Cfg) : List Micro :=
  setoutProgram cfg ++ [.sampleInto .tdo 0, .sampleInto .asdo 1]

/-- One bit of `SHOUT`: present, raise, shift, lower (42_shift_engine.md R121). -/
def shoutBit : List Micro := [.presentBit .tdi, .writeLevel .tck true, .shiftZero, .writeLevel .tck false]

/-- `SHOUT`: eight bits, then the settle step (R121); the same under every flag (R124). -/
def shoutProgram : List Micro := (List.replicate 8 shoutBit).flatten ++ [.settle]

/-- One bit of `SHIO`: sample, present, raise, shift, lower (R125; the order is normative, R129). -/
def shioBit : List Micro :=
  [.sampleFeedback, .presentBit .tdi, .writeLevel .tck true, .shiftCapture, .writeLevel .tck false]

/-- `SHIO`: the dispatch micro-step if `HAVE_AS` (43_mode_dispatcher.md R140, R141), then eight bits (R125). -/
def shioProgram (cfg : Cfg) : List Micro :=
  (if cfg.haveAs then [.dispatch] else []) ++ (List.replicate 8 shioBit).flatten

/-- The micro-program of a command under a configuration. -/
def programOf (i : Instr) (cfg : Cfg) : List Micro :=
  match i with
  | .init => initProgram
  | .setout _ => setoutProgram cfg
  | .setrd _ => setrdProgram cfg
  | .shout _ => shoutProgram
  | .shio _ => shioProgram cfg

/-- `MP(CMD, CFG)`; a reserved word has no micro-program (30_encoding.md R88). -/
def microProgram (cmd : CmdWord) (cfg : Cfg) : List Micro :=
  match decode cmd with
  | .command i => programOf i cfg
  | .reservedOp _ => []

/-- The number of micro-steps of the longest command (70_reset_and_hazards.md R187). -/
def longestProgram : Nat := 41

end Sys2Proof.Machine
end

