-- ==== Sys2Proof/Machine/Sequencer.lean ====
section
/-! DEFINITION. The sequencer: acceptance (10_state.md R37), one step (R36), completion (R38), and a whole command as
acceptance followed by the steps until `BUSY` falls. -/

namespace Sys2Proof.Machine

/-- The register writes of acceptance (R37): no pin register and no control register changes. -/
def loadCommand (w : CmdWord) (s : State) : State :=
  { s with cmd := w, sr := dataOf w, c := false, fbsel := false, upc := 0, busy := true }

/-- The response of the command in `CMD`, if it returns one (R38). -/
def responseOf (s : State) : Option Byte :=
  match decode s.cmd with
  | .command (.setrd _) => some (inputWordResponse s.sr)
  | .command (.shio _) => some s.sr
  | _ => none

/-- Completion (R38). -/
def complete (s : State) : State := { s with busy := false, upc := 0, rsp := responseOf s }

/-- `upc <- upc + 1` (R34). -/
def nextUpc (s : State) : State := { s with upc := s.upc + 1 }

/-- Move past a micro-step, completing after the last of `len` (R36; log 11). -/
def advance (len : Nat) (s : State) : State :=
  if (nextUpc s).upc.toNat = len then complete (nextUpc s) else nextUpc s

/-- The micro-step at `upc` and the advance past it, inside one clock edge (R36). -/
def microStep (e : EdgeInput) (s : State) : Result :=
  match (microProgram s.cmd s.cfg)[s.upc.toNat]? with
  | some m => .next (advance (microProgram s.cmd s.cfg).length (perform m e s))
  | none => .refused .noMicroStep

/-- One step of the sequencer while `BUSY = 1` (R36). -/
def seqStep (s : State) : Result := atEdge s microStep

/-- At most `n` steps of the sequencer, ending when `BUSY` falls (by completion R38 or by reset R170). -/
def finish : Nat → State → Result
  | 0, s => .next s
  | n + 1, s =>
    if s.busy then
      match seqStep s with
      | .next t => finish n t
      | .fault r => .fault r
      | .refused r => .refused r
    else .next s

/-- The word the host presents for command `i`: the first of its queue where that word is a word of `i`, else the canonical
word (log 13). -/
def presentedWord (i : Instr) (s : State) : CmdWord :=
  match s.cmds with
  | w :: _ => if decode w = .command i then w else encode i
  | [] => encode i

/-- The host's queue once command `i` has been presented: its word is taken from the queue, where it stood there. -/
def takePresented (i : Instr) (s : State) : State :=
  match s.cmds with
  | w :: ws => if decode w = .command i then { s with cmds := ws } else s
  | [] => s

/-- Only `INIT` is admitted in a state that is not Initialised (70_reset_and_hazards.md R171). -/
def admitted (i : Instr) (s : State) : Bool :=
  match i with
  | .init => true
  | .setout _ => initialised s
  | .setrd _ => initialised s
  | .shout _ => initialised s
  | .shio _ => initialised s

/-- Acceptance of command `i` at a clock edge (R37, R171), then at most `n` micro-steps of it. -/
def runUpTo (n : Nat) (i : Instr) (s : State) : Result :=
  if s.busy then .refused .commandWhileBusy
  else
    atEdge (takePresented i s) fun _ t =>
      if admitted i t then finish n (loadCommand (presentedWord i s) t) else .refused .notInitialised

/-- A whole command: acceptance, every micro-step, completion. -/
def runCommand (i : Instr) (s : State) : Result := runUpTo longestProgram i s

/-- A clock edge while idle with no command presented: CORE holds its registers and pins (60_exceptions.md R163). -/
def idleEdge (s : State) : Result := atEdge s fun _ t => .next t

/-- A clock edge at which the host presents a reserved word: a model refuses it (30_encoding.md R88), unless `rst` wins. -/
def reservedEdge (s : State) : Result :=
  atEdge { s with cmds := s.cmds.tail } fun _ _ => .refused .reservedCommand

end Sys2Proof.Machine
end

