-- ==== Sys2Proof/Machine/Initializer.lean ====
section
/-! DEFINITION. The Initializer: the meaning of `INIT` (40_initializer.md). -/

namespace Sys2Proof.Machine

/-- `INIT` (R100): admitted in every state (R171), any number of times (R103). -/
def execInit (s : State) : Host.Outcome State Fault Refusal := runCommand .init s

end Sys2Proof.Machine
end

