-- ==== Sys2Proof/Machine/ShiftEngine.lean ====
section
/-! DEFINITION. The Shift Engine: the meanings of `SHOUT` and `SHIO` (42_shift_engine.md), the latter with the Mode
Dispatcher as its first micro-step (43_mode_dispatcher.md). -/

namespace Sys2Proof.Machine

/-- `SHOUT b` (R121). -/
def execShout (b : Byte) (s : State) : Host.Outcome State Fault Refusal := runCommand (.shout b) s

/-- `SHIO b` (R125). -/
def execShio (b : Byte) (s : State) : Host.Outcome State Fault Refusal := runCommand (.shio b) s

end Sys2Proof.Machine
end

