-- ==== Sys2Proof/Machine/StatePort.lean ====
section
/-! DEFINITION. The State Port: the meanings of `SETOUT` and `SETRD` (41_state_port.md). -/

namespace Sys2Proof.Machine

/-- `SETOUT w` (R111). -/
def execSetout (w : StateWord) (s : State) : Host.Outcome State Fault Refusal := runCommand (.setout w) s

/-- `SETRD w` (R114). -/
def execSetrd (w : StateWord) (s : State) : Host.Outcome State Fault Refusal := runCommand (.setrd w) s

end Sys2Proof.Machine
end

