-- ==== Sys2Proof/Machine/Dispatch.lean ====
section
/-! DEFINITION. One arm for each command: a direct call of its meaning. -/

namespace Sys2Proof.Machine

/-- The meaning of a command in a state. -/
def exec (i : Instr) (s : State) : Host.Outcome State Fault Refusal :=
  match i with
  | .init => Sys2Proof.Machine.execInit s
  | .setout w => Sys2Proof.Machine.execSetout w s
  | .setrd w => Sys2Proof.Machine.execSetrd w s
  | .shout b => Sys2Proof.Machine.execShout b s
  | .shio b => Sys2Proof.Machine.execShio b s

end Sys2Proof.Machine
end

