-- ==== Sys2Proof/Machine/Step.lean ====
section
/-! DEFINITION. One step of the machine, and how a word is placed where the next step takes its command. -/

namespace Sys2Proof.Machine

/-- One step. While `BUSY = 1`: one micro-step of the running command (10_state.md R36). While idle: the command the host
presents (R37), as a whole; or one idle clock edge. -/
def step (s : State) : Host.Outcome State Fault Refusal :=
  if s.busy then seqStep s
  else
    match s.cmds with
    | [] => idleEdge s
    | w :: _ =>
      match decode w with
      | .command i => exec i s
      | .reservedOp _ => reservedEdge s

/-- `s` with CORE idle and the command word presented next by the host (log 19). A number wider than a command word cannot
stand on the 11-bit port: then no command is presented. -/
def State.withFetchWord (s : State) (nbits w : Nat) : State :=
  match portWord nbits w with
  | some cmd => { s with busy := false, cmds := cmd :: s.cmds }
  | none => { s with busy := false, cmds := [] }

end Sys2Proof.Machine
end

