-- ==== Sys2Proof/Machine/Ports.lean ====
section
/-! DEFINITION. The output ports of CORE as functions of its registers, and the pad levels (10_state.md R40; the ports are the
spec's own). `rsp_valid` and `rsp` are the field `rsp` of State; `clk` is a step; `rst`, `cmd` and `pad_in` are inputs. -/

namespace Sys2Proof.Machine

/-- `cmd_ready`, equal to `not BUSY`. -/
def cmdReady (s : State) : Bool := !s.busy

/-- `rsp_valid`. -/
def rspValid (s : State) : Bool := s.rsp.isSome

/-- `pad_out`, equal to `OUT`. -/
def padOut (s : State) : Levels := s.mem.out

/-- `pad_oe`, equal to `OE`. -/
def padOe (s : State) : Levels := s.mem.oe

/-- `clk_full`, `CLKCFG.FULL` (R27). -/
def clkFull (s : State) : Bool := s.clkcfg.getLsbD 0

/-- `clkout_en`, `CLKCFG.CLKOUT` (R27). -/
def clkoutEn (s : State) : Bool := s.clkcfg.getLsbD 1

/-- `bus_sync`, `BUSMODE.SYNC` (R28). -/
def busSync (s : State) : Bool := s.busmode.getLsbD 0

/-- `bus_extclk`, `BUSMODE.EXTCLK` (R28). -/
def busExtclk (s : State) : Bool := s.busmode.getLsbD 1

/-- `bus_direct`, `BUSMODE.DIRECT` (R28). -/
def busDirect (s : State) : Bool := s.busmode.getLsbD 2

/-- `vreg_disc`, `VREGCTL.DISC` (R29). -/
def vregDisc (s : State) : Bool := s.vregctl.getLsbD 0

/-- What the environment sees on pin `p`: the level CORE drives, or nothing (R22: "driven" and "read"). -/
def padLevel (s : State) (p : Nat) : Option Bool := if s.mem.oe.at p then some (s.mem.out.at p) else none

end Sys2Proof.Machine
end

