-- ==== Sys2Proof/Machine/Trace.lean ====
section
/-! DEFINITION. The pin events of a command, in order (95_test_vectors.md, conventions): what the environment can see of its
micro-steps. A trace lists only the micro-steps that touch a pin, and the constant read of an absent signal. It is computed
from the same micro-programs and the same `seqStep` as the meanings; State does not hold it. -/

namespace Sys2Proof.Machine

/-- One pin event. -/
inductive PinEvent where
  /-- `W(g, v)`: a `SigWrite` of an existing signal. -/
  | write (g : Signal) (v : Bool)
  /-- `R(g) = v`: a `SigRead` of an existing signal that returned `v`. -/
  | read (g : Signal) (v : Bool)
  /-- The constant read of an absent signal, which touches no pin (20_memory.md R53). -/
  | readConst (g : Signal)
deriving DecidableEq, Repr

/-- The event of a write. -/
def writeEvent (g : Signal) (v : Bool) (s : State) : Option PinEvent :=
  if sigExists s.cfg g then some (.write g v) else none

/-- The event of a read. -/
def readEvent (e : EdgeInput) (g : Signal) (s : State) : Option PinEvent :=
  if sigExists s.cfg g then some (.read g (sigRead e g s).1) else some (.readConst g)

/-- The event of a micro-step performed at a clock edge with input `e` in state `s`. -/
def eventOf (m : Micro) (e : EdgeInput) (s : State) : Option PinEvent :=
  match m with
  | .writeClkcfg _ => none
  | .writeBusmode _ => none
  | .assignOe => none
  | .writeVregctl _ => none
  | .orOe => none
  | .writeCmdBit g k => writeEvent g (cmdBit s.cmd k) s
  | .sampleInto g _ => readEvent e g s
  | .presentBit g => writeEvent g (s.sr.getLsbD 0) s
  | .writeLevel g v => writeEvent g v s
  | .shiftZero => none
  | .shiftCapture => none
  | .settle => none
  | .dispatch => readEvent e .ncs s
  | .sampleFeedback => readEvent e (feedbackSignal s.fbsel) s

/-- The event of the next clock edge of a busy state; none where `rst` wins. -/
def nextEvent (s : State) : Option PinEvent :=
  if (inputAt s 0).rst then none
  else
    match (microProgram s.cmd s.cfg)[s.upc.toNat]? with
    | some m => eventOf m (inputAt s 0) (passEdge s)
    | none => none

/-- The events of at most `n` steps of the sequencer, ending when `BUSY` falls or a step is refused. -/
def traceFrom : Nat → State → List PinEvent
  | 0, _ => []
  | n + 1, s =>
    if s.busy then
      match seqStep s with
      | .next t => (nextEvent s).toList ++ traceFrom n t
      | .fault _ => []
      | .refused _ => []
    else []

/-- The trace of a whole command. -/
def commandTrace (i : Instr) (s : State) : List PinEvent :=
  match runUpTo 0 i s with
  | .next u => traceFrom longestProgram u
  | .fault _ => []
  | .refused _ => []

/-- The rising edges of `TCK` in a trace, `level` being its level before it (42_shift_engine.md R123). -/
def risingEdges : Bool → List PinEvent → Nat
  | _, [] => 0
  | level, .write .tck v :: es => (if !level && v then 1 else 0) + risingEdges v es
  | level, _ :: es => risingEdges level es

/-- The falling edges of `TCK` in a trace, `level` being its level before it (R123). -/
def fallingEdges : Bool → List PinEvent → Nat
  | _, [] => 0
  | level, .write .tck v :: es => (if level && !v then 1 else 0) + fallingEdges v es
  | level, _ :: es => fallingEdges level es

end Sys2Proof.Machine
end

