-- ==== Sys2Proof/Safety.lean ====
section
/-! DEFINITION. What the claims are stated in: when a run meets no refusal and no reset, the invariants, the host's and the
builder's duties (70_reset_and_hazards.md), and the micro-step counts the spec gives (R187). -/

namespace Sys2Proof.Machine

/-- The outside neither resets CORE nor drives a pin of `oe` at a clock edge with input `e`. -/
abbrev EdgeClear (oe : Levels) (e : EdgeInput) : Prop := e.rst = false ∧ contends oe e = false

/-- The next `n` clock edges are clear, with the directions as they are now. -/
abbrev ClearFor (n : Nat) (s : State) : Prop := ∀ k, k < n → EdgeClear s.mem.oe (inputAt s k)

/-- The six clock edges of `INIT` are clear: through its third micro-step with the directions as they are now, after it with
`OUT_MASK` (40_initializer.md R100, R104; 70_reset_and_hazards.md R180). -/
abbrev ClearForInit (s : State) : Prop :=
  (∀ k, k < 4 → EdgeClear s.mem.oe (inputAt s k)) ∧ ∀ k, 4 ≤ k → k < 6 → EdgeClear (outMask s.cfg) (inputAt s k)

/-- CORE is idle, its configuration valid, its pin vectors whole. -/
abbrev Idle (s : State) : Prop := valid s.cfg = true ∧ s.mem.wf s.cfg.npins ∧ s.busy = false

/-- CORE is idle and Initialised (10_state.md R30): every command is admitted (70_reset_and_hazards.md R171). -/
abbrev Ready (s : State) : Prop := Idle s ∧ initialised s = true

/-- The number of micro-steps of a command (70_reset_and_hazards.md R187). -/
def microSteps (cfg : Cfg) : Instr → Nat
  | .init => 5
  | .setout _ => 3 + 2 * cfg.haveAs.toNat + cfg.haveLed.toNat
  | .setrd _ => 5 + 2 * cfg.haveAs.toNat + cfg.haveLed.toNat
  | .shout _ => 33
  | .shio _ => 40 + cfg.haveAs.toNat

/-- The clock edges of command `i` are clear. -/
def ClearRun (i : Instr) (s : State) : Prop :=
  match i with
  | .init => ClearForInit s
  | .setout w => ClearFor (1 + microSteps s.cfg (.setout w)) s
  | .setrd w => ClearFor (1 + microSteps s.cfg (.setrd w)) s
  | .shout b => ClearFor (1 + microSteps s.cfg (.shout b)) s
  | .shio b => ClearFor (1 + microSteps s.cfg (.shio b)) s

/-- The host resets CORE nowhere in the script. -/
abbrev NoReset (s : State) : Prop := ∀ e ∈ s.env, e.rst = false

/-- The six signals the commands write (20_memory.md R61), each with its bit of the Output State Word (41_state_port.md
R110), in the order of R111. -/
def wordSignals : List (Signal × Nat) := [(.tck, 0), (.tms, 1), (.nce, 2), (.ncs, 3), (.tdi, 4), (.oeLed, 5)]

/-- Those of the six that exist. -/
def writtenSignals (cfg : Cfg) : List (Signal × Nat) := wordSignals.filter fun x => sigExists cfg x.1

/-- The level sampled from an undriven pin at a clock edge: what the environment applies, else the free value of draw `d`. -/
def sampleOf (e : EdgeInput) (p d : Nat) : Bool := (e.ext.getD p none).getD (Config.floatLevel d)

/-- 1 if nothing drives pin `p` at the clock edge, else 0: how many free values its sample draws. -/
def floats (e : EdgeInput) (p : Nat) : Nat := if (e.ext.getD p none).isSome then 0 else 1

/-- The feedback signal a `SHIO` issued in `s` samples (43_mode_dispatcher.md R145, R142), `s` being Initialised. -/
def selectedFeedback (s : State) : Signal :=
  if s.cfg.haveAs && !s.mem.out.at (pin s.cfg .ncs) then .asdo else .tdo

/-- The clock edge, counted from the acceptance edge 0, at which `SHIO` takes sample `k` (42_shift_engine.md R125). -/
def sampleEdge (cfg : Cfg) (k : Nat) : Nat := 1 + cfg.haveAs.toNat + 5 * k

/-- Sample `k` of a `SHIO` issued in `s`: `c_k` of R126. -/
def shioSample (s : State) (k : Nat) : Bool :=
  let p := pin s.cfg (selectedFeedback s)
  sampleOf (inputAt s (sampleEdge s.cfg k)) p
    (s.draws + ((List.range k).map fun j => floats (inputAt s (sampleEdge s.cfg j)) p).sum)

/-- The registers that persist between commands (10_state.md R20, R39). -/
def persistent (s : State) : Memory × BitVec 2 × BitVec 3 × BitVec 1 := (s.mem, s.clkcfg, s.busmode, s.vregctl)

/-- The bits of a command's word that carry meaning (30_encoding.md R81, R89); the others are ignored. -/
def meaningfulBits : Instr → CmdWord
  | .init => 0x700#11
  | .setout _ => 0x73F#11
  | .setrd _ => 0x73F#11
  | .shout _ => 0x7FF#11
  | .shio _ => 0x7FF#11

/-- What every completed command leaves, beside its own effect: CORE idle at `upc` 0, the transients as acceptance loaded
them (10_state.md R37, R38), no response, the word taken from the host's queue, one clock edge passed for the acceptance
and one for each micro-step (log 11, 13); every other field as it was. -/
def commandFrame (i : Instr) (s : State) : State :=
  { takePresented i s with
    busy := false
    cmd := presentedWord i s
    upc := 0
    sr := dataOf (presentedWord i s)
    c := false
    fbsel := false
    rsp := none
    env := s.env.drop (1 + microSteps s.cfg i) }

/-- In every sample of a `SHIO b` issued in `s`, the selected feedback pin has the level of the TDI latch at that moment:
the feedback line is wired to the data-out line (42_shift_engine.md R128). -/
def LoopedBack (b : Byte) (s : State) : Prop :=
  ∀ k, k < 8 → ∀ u, runUpTo (s.cfg.haveAs.toNat + 5 * k) (.shio b) s = .next u →
    (inputAt u 0).ext.getD (pin s.cfg (selectedFeedback s)) none = some (u.mem.out.at (pin s.cfg .tdi))

/-- `SHOUT` and `SHIO` are issued with the clock low (host's duty, 70_reset_and_hazards.md R176). -/
abbrev ClockLow (s : State) : Prop := s.mem.out.at (pin s.cfg .tck) = false

/-- The builder's duty on the clock pulse widths (70_reset_and_hazards.md R178). -/
abbrev PulseWidthsMet (cfg : Cfg) : Prop := cfg.tHighMin ≤ 2 * cfg.tStep ∧ cfg.tLowMin ≤ 2 * cfg.tStep

/-- A step neither refuses nor faults. -/
def Runs (s : State) : Prop := ∃ t, step s = .next t

/-- `k` steps of the machine, ending at the first refusal (the run of `Sys2Proof.core`, over State by its own name). -/
def steps : Nat → State → Result
  | 0, s => .next s
  | k + 1, s =>
    match step s with
    | .next t => steps k t
    | .fault r => .fault r
    | .refused r => .refused r

/-- THE INVARIANT of the machine: the configuration is valid; the pin vectors are whole; CORE drives no pin or exactly the
pins of `OUT_MASK` (10_state.md R22, R41); idle, `upc` is 0; busy, `CMD` holds a command, `upc` lies in its micro-program
(R34), a command other than `INIT` runs Initialised (70_reset_and_hazards.md R171), an `INIT` past its third micro-step has
`OE = OUT_MASK` (40_initializer.md R100), and `FBSEL` is set only where ASDO exists (43_mode_dispatcher.md R145). -/
structure Inv (s : State) : Prop where
  cfgValid : valid s.cfg = true
  memWf : s.mem.wf s.cfg.npins
  directions : s.mem.oe = List.replicate s.cfg.npins false ∨ s.mem.oe = outMask s.cfg
  idlePosition : s.busy = false → s.upc = 0
  busyCommand : s.busy = true → ∃ i, decode s.cmd = .command i
  busyPosition : s.busy = true → s.upc.toNat < (microProgram s.cmd s.cfg).length
  busyInitialised : s.busy = true → decode s.cmd ≠ .command .init → initialised s = true
  initDirections : s.busy = true → decode s.cmd = .command .init → 3 ≤ s.upc.toNat → s.mem.oe = outMask s.cfg
  feedbackExists : s.busy = true → s.fbsel = true → s.cfg.haveAs = true

/-- A pin to which none of the six written signals is bound keeps its latch at `OUT_RESET` (20_memory.md R57;
40_initializer.md R102 for JTAG_EN). -/
def UnwrittenKeepReset (s : State) : Prop :=
  ∀ p, p < s.cfg.npins → (∀ x ∈ writtenSignals s.cfg, pin s.cfg x.1 ≠ p) → s.mem.out.at p = s.cfg.outReset.at p

end Sys2Proof.Machine
end

