-- ==== Sys2Proof/Certificates/Slice0/Obligations.lean ====
section
/-! DEFINITION. The statements for the provers, each about every state, every configuration and every behaviour of the
outside, from the numbered rules of spec/. -/

open Sys2Proof Sys2Proof.Machine

/-! ### Encoding -/

/-- 30_encoding.md R84 to R87: the words of each command, whatever the ignored bits, and its canonical word. -/
def Obligations.EncodingOfEachCommand : Prop :=
  (∀ d : BitVec 8, decode (0b000#3 ++ d) = .command .init) ∧
  encode .init = 0x000#11 ∧
  (∀ (x : BitVec 2) (w : StateWord), decode (0b001#3 ++ (x ++ w)) = .command (.setout w)) ∧
  (∀ w : StateWord, (encode (.setout w)).toNat = 0x100 + w.toNat) ∧
  (∀ (x : BitVec 2) (w : StateWord), decode (0b010#3 ++ (x ++ w)) = .command (.setrd w)) ∧
  (∀ w : StateWord, (encode (.setrd w)).toNat = 0x200 + w.toNat) ∧
  (∀ b : Byte, decode (0b011#3 ++ b) = .command (.shout b) ∧ (encode (.shout b)).toNat = 0x300 + b.toNat) ∧
  ∀ b : Byte, decode (0b100#3 ++ b) = .command (.shio b) ∧ (encode (.shio b)).toNat = 0x400 + b.toNat

/-- 30_encoding.md R89: every command decodes from its canonical word; and a word that decodes to a command differs from
its canonical word in ignored bits only. -/
def Obligations.DecodeAndEncodeAgree : Prop :=
  (∀ i : Instr, i.wellFormed = true ∧ decode (encode i) = .command i) ∧
  ∀ (w : CmdWord) (i : Instr), decode w = .command i → encode i = w &&& meaningfulBits i

/-- 30_encoding.md R88, R89: the decoder is total; the words 0x500 to 0x7FF, and no others, are reserved. -/
def Obligations.DecoderIsTotalOnAllWords : Prop :=
  (∀ w : CmdWord, w.toNat < 0x500 → ∃ i, decode w = .command i) ∧
  (∀ w : CmdWord, 0x500 ≤ w.toNat → decode w = .reservedOp (opOf w)) ∧
  ((List.range 2048).filter fun n => (decodeTableWord 16 n).isSome).length = 1280

/-- 95_test_vectors.md 2.7: words written out from the encodings decode to the commands they stand for. -/
def Obligations.WordsOfTheEncodingTable : Prop :=
  decode 0b000_00000000#11 = .command .init ∧
  decode 0b000_10101011#11 = .command .init ∧
  decode 0b001_00_101100#11 = .command (.setout 0x2C#6) ∧
  decode 0b001_11_101100#11 = .command (.setout 0x2C#6) ∧
  decode 0b010_00_000000#11 = .command (.setrd 0x00#6) ∧
  decode 0b010_00_111111#11 = .command (.setrd 0x3F#6) ∧
  decode 0b011_10100101#11 = .command (.shout 0xA5#8) ∧
  decode 0b100_10100101#11 = .command (.shio 0xA5#8) ∧
  decode 0b101_00000000#11 = .reservedOp 0b101#3

/-- 30_encoding.md R91: an operand out of range is an assembly error; otherwise the assembler emits the canonical word of
the command the line writes down. -/
def Obligations.AssemblerEmitsTheCanonicalWord : Prop :=
  ∀ l : AsmLine,
    (l.wellFormed = false → assemble l = none) ∧
    (l.wellFormed = true → ∃ i, AsmLine.ofInstr i = l ∧ assemble l = some (encode i))

/-! ### The step -/

/-- 10_state.md R37: when CORE is idle and the word the host presents decodes to `i`, a step is `i`'s meaning, which
accepts that very word and takes it from the host's queue. The queue, the word accepted and a whole command in one
step are the model's choices (log 10, 12, 13). -/
def Obligations.StepRunsTheDecodedCommand : Prop :=
  ∀ (s : State) (w : CmdWord) (ws : List CmdWord) (i : Instr),
    s.busy = false → s.cmds = w :: ws → decode w = .command i →
      step s = exec i s ∧ presentedWord i s = w ∧ takePresented i s = { s with cmds := ws }

/-- 60_exceptions.md R163: idle and with no command presented, CORE holds every register through a clear clock edge.
The script and the cleared response port are the model's (log 7, 20). -/
def Obligations.IdleEdgeHoldsEveryRegister : Prop :=
  ∀ s : State, Idle s → s.cmds = [] → EdgeClear s.mem.oe (inputAt s 0) →
    step s = .next { s with env := s.env.tail, rsp := none }

/-- 10_state.md R37: acceptance loads `CMD`, `SR` with the data field, clears `C`, `FBSEL` and `upc`, sets `BUSY`, and
changes no pin register and no control register. The queue and the script are the model's (log 7, 12). -/
def Obligations.AcceptanceLoadsTheSequencer : Prop :=
  ∀ (s : State) (w : CmdWord) (ws : List CmdWord) (i : Instr),
    Idle s → s.cmds = w :: ws → decode w = .command i → (i = .init ∨ initialised s = true) →
    EdgeClear s.mem.oe (inputAt s 0) →
      runUpTo 0 i s = .next
        { s with
          cmd := w, sr := w.extractLsb' 0 8, c := false, fbsel := false, upc := 0, busy := true, rsp := none,
          cmds := ws, env := s.env.tail }

/-- 10_state.md R36, R34, R38: one step while `BUSY = 1`, without `rst`, performs the micro-step at `upc`; `upc`
advances by 1; the last micro-step completes the command: `BUSY` and `upc` 0, and a response from `SETRD` and `SHIO`
alone. Completion in the edge of the last micro-step is the model's reading (log 11). -/
def Obligations.OneStepOfTheSequencer : Prop :=
  ∀ s t : State, Inv s → s.busy = true → (inputAt s 0).rst = false → step s = .next t →
    ∃ m, (microProgram s.cmd s.cfg)[s.upc.toNat]? = some m ∧
      t.mem = (perform m (inputAt s 0) s).mem ∧ t.sr = (perform m (inputAt s 0) s).sr ∧
      t.c = (perform m (inputAt s 0) s).c ∧ t.fbsel = (perform m (inputAt s 0) s).fbsel ∧
      t.clkcfg = (perform m (inputAt s 0) s).clkcfg ∧ t.busmode = (perform m (inputAt s 0) s).busmode ∧
      t.vregctl = (perform m (inputAt s 0) s).vregctl ∧ t.draws = (perform m (inputAt s 0) s).draws ∧
      t.cfg = s.cfg ∧ t.cmd = s.cmd ∧ t.cmds = s.cmds ∧ t.env = s.env.tail ∧
      (s.upc.toNat + 1 < (microProgram s.cmd s.cfg).length →
        t.busy = true ∧ t.upc.toNat = s.upc.toNat + 1 ∧ t.rsp = none) ∧
      (s.upc.toNat + 1 = (microProgram s.cmd s.cfg).length →
        t.busy = false ∧ t.upc = 0 ∧
        (∀ w, decode s.cmd = .command (.setrd w) → t.rsp = some ((t.sr.extractLsb' 0 2).setWidth 8)) ∧
        (∀ b, decode s.cmd = .command (.shio b) → t.rsp = some t.sr) ∧
        ((∀ w, decode s.cmd ≠ .command (.setrd w)) → (∀ b, decode s.cmd ≠ .command (.shio b)) → t.rsp = none))

/-- 10_state.md R33: while `BUSY = 1` CORE accepts no command: it is not ready, no word leaves the host's queue, and
`CMD` keeps the running command's word as long as that runs. The queue is the model's (log 12). -/
def Obligations.BusyCoreAcceptsNoCommand : Prop :=
  ∀ s t : State, s.busy = true → step s = .next t →
    cmdReady s = false ∧ t.cmds = s.cmds ∧ (t.busy = true → t.cmd = s.cmd)

/-- 10_state.md R36; D1: the meaning of a command is acceptance followed by the machine's own steps: as long as `BUSY`
has not fallen, `k` micro-steps of the meaning are `k` steps of the machine; once it has fallen, nothing more happens.
Both granularities are the model's choice (log 10). -/
def Obligations.CommandIsTheMachinesOwnSteps : Prop :=
  (∀ (i : Instr) (s : State), exec i s = runUpTo longestProgram i s) ∧
  (∀ (i : Instr) (s u : State), runUpTo 0 i s = .next u →
    ∀ k, (∀ j, j < k → ∃ v, runUpTo j i s = .next v ∧ v.busy = true) → steps k u = runUpTo k i s) ∧
  ∀ (i : Instr) (s u : State) (n k : Nat), runUpTo n i s = .next u → u.busy = false → runUpTo (n + k) i s = .next u

/-- 70_reset_and_hazards.md R187, R188, R173: every admitted command completes, after exactly the micro-steps of
R187's table, `upc` counting them; at most 41. The count of clock edges rests on log 11. -/
def Obligations.EveryCommandCompletesInItsMicroSteps : Prop :=
  ∀ (i : Instr) (s : State), Idle s → (i = .init ∨ initialised s = true) → ClearRun i s →
    microSteps s.cfg i ≤ 41 ∧
    (∀ n, n < microSteps s.cfg i → ∃ u, runUpTo n i s = .next u ∧ u.busy = true ∧ u.upc.toNat = n) ∧
    ∃ t, runUpTo (microSteps s.cfg i) i s = .next t ∧ exec i s = .next t ∧ t.busy = false ∧ t.upc = 0 ∧
      t.env = s.env.drop (1 + microSteps s.cfg i)

/-! ### The Initializer -/

/-- 40_initializer.md R101: the state after `INIT`, from any idle state; step 5 changes nothing after step 3. The
frame's word and its count of clock edges rest on log 11, 13. -/
def Obligations.InitPostState : Prop :=
  ∀ s : State, valid s.cfg = true → s.busy = false → ClearForInit s →
    (∃ t, exec .init s = .next t ∧
      t = { commandFrame .init s with
            mem := { s.mem with oe := outMask s.cfg }, clkcfg := 0b11#2, busmode := 0b111#3, vregctl := 1#1 } ∧
      initialised t = true) ∧
    (outMask s.cfg).or (jtagMinMask s.cfg) = outMask s.cfg

/-- 40_initializer.md R100, R104; 70_reset_and_hazards.md R186: the five effects of `INIT` happen in their order, one at each
micro-step; no latch changes. -/
def Obligations.InitEffectsInOrder : Prop :=
  ∀ (s : State) (n : Nat), valid s.cfg = true → s.busy = false → ClearForInit s → n ≤ 5 →
    ∃ u, runUpTo n .init s = .next u ∧
      u.clkcfg = (if 1 ≤ n then 0b11#2 else s.clkcfg) ∧
      u.busmode = (if 2 ≤ n then 0b111#3 else s.busmode) ∧
      u.mem.oe = (if 3 ≤ n then outMask s.cfg else s.mem.oe) ∧
      u.vregctl = (if 4 ≤ n then 1#1 else s.vregctl) ∧
      u.mem.out = s.mem.out

/-- 40_initializer.md R103: a second `INIT` changes no persistent register, and so no pad, at any micro-step. -/
def Obligations.SecondInitChangesNothing : Prop :=
  ∀ (s : State) (n : Nat), Ready s → ClearFor 6 s → n ≤ 5 →
    ∃ u, runUpTo n .init s = .next u ∧ persistent u = persistent s ∧ ∀ p, padLevel u p = padLevel s p

/-- 10_state.md R30: once true, `Initialised` stays true until reset. -/
def Obligations.InitialisedUntilReset : Prop :=
  ∀ s t : State, initialised s = true → NoReset s → step s = .next t → initialised t = true ∧ NoReset t

/-! ### The State Port -/

/-- 41_state_port.md R111, R110: `SETOUT w` leaves each existing signal of the word at its bit, and everything else as
it was: every other latch, `OE`, every control register. The frame's word and its count of clock edges rest on log 11,
13. -/
def Obligations.SetoutWritesTheOutputWord : Prop :=
  ∀ (w : StateWord) (s : State), Ready s → ClearRun (.setout w) s →
    ∃ out, exec (.setout w) s = .next { commandFrame (.setout w) s with mem := { s.mem with out := out } } ∧
      out.length = s.cfg.npins ∧
      (∀ x ∈ writtenSignals s.cfg, out.at (pin s.cfg x.1) = w.getLsbD x.2) ∧
      ∀ p, (∀ x ∈ writtenSignals s.cfg, pin s.cfg x.1 ≠ p) → out.at p = s.mem.out.at p

/-- 41_state_port.md R111; 70_reset_and_hazards.md R181: the pins of `SETOUT` change one after another, in the order TCK, TMS,
NCE, NCS, TDI, OE_LED: after `n` micro-steps the first `n` existing signals have their new level and every other latch
is as it was. -/
def Obligations.SetoutPinsChangeOneAtATime : Prop :=
  ∀ (w : StateWord) (s : State) (n : Nat), Ready s → ClearRun (.setout w) s → n ≤ microSteps s.cfg (.setout w) →
    (writtenSignals s.cfg).length = microSteps s.cfg (.setout w) ∧
    ∃ u, runUpTo n (.setout w) s = .next u ∧ u.mem.oe = s.mem.oe ∧
      (∀ x ∈ (writtenSignals s.cfg).take n, u.mem.out.at (pin s.cfg x.1) = w.getLsbD x.2) ∧
      ∀ p, (∀ x ∈ (writtenSignals s.cfg).take n, pin s.cfg x.1 ≠ p) → u.mem.out.at p = s.mem.out.at p

/-- 41_state_port.md R112: `SETOUT w1; SETOUT w2` ends as `SETOUT w2` alone does; with `w1 = w2`, writing a word twice ends as
writing it once. The two ends agree in every persistent register and in every other register; `CMD` and `SR` may differ in
the ignored bits of the word presented alone (`CMD` decodes to the same command, bits 5 to 0 of `SR` agree). The model's own
queue and script, which the longer run has used further, are left out (log 7, 12, 13). -/
def Obligations.SetoutOverwrites : Prop :=
  ∀ (w1 w2 : StateWord) (s : State), Ready s →
    ClearFor (2 * (1 + microSteps s.cfg (.setout w2))) s →
    ∃ u t t', exec (.setout w1) s = .next u ∧ exec (.setout w2) u = .next t ∧ exec (.setout w2) s = .next t' ∧
      persistent t = persistent t' ∧
      t = { t' with cmd := t.cmd, sr := t.sr, cmds := t.cmds, env := t.env } ∧
      decode t.cmd = decode t'.cmd ∧
      t.sr.extractLsb' 0 6 = t'.sr.extractLsb' 0 6 ∧ t.sr.extractLsb' 0 6 = w2

/-- 41_state_port.md R114, R113, R116: `SETRD w` writes as `SETOUT w` does, then samples TDO and, at the next
micro-step, ASDO (the constant 1 where ASDO is absent); the response is `{000000, ASDO, TDO}`; everything else is as
it was. Free values: log 8; the frame and the sampling edges: log 11, 13. -/
def Obligations.SetrdWritesThenSamples : Prop :=
  ∀ (w : StateWord) (s : State), Ready s → ClearRun (.setrd w) s →
    ∃ out tdo asdo,
      tdo = sampleOf (inputAt s (1 + microSteps s.cfg (.setout w))) (pin s.cfg .tdo) s.draws ∧
      asdo = (if s.cfg.haveAs || s.cfg.havePs then
        sampleOf (inputAt s (2 + microSteps s.cfg (.setout w))) (pin s.cfg .asdo)
          (s.draws + floats (inputAt s (1 + microSteps s.cfg (.setout w))) (pin s.cfg .tdo)) else true) ∧
      exec (.setrd w) s = .next
        { commandFrame (.setrd w) s with
          mem := { s.mem with out := out }
          sr := (presentedWord (.setrd w) s).extractLsb' 2 6 ++ (BitVec.ofBool asdo ++ BitVec.ofBool tdo)
          rsp := some (0#6 ++ (BitVec.ofBool asdo ++ BitVec.ofBool tdo))
          draws := s.draws + floats (inputAt s (1 + microSteps s.cfg (.setout w))) (pin s.cfg .tdo) +
            (if s.cfg.haveAs || s.cfg.havePs then
              floats (inputAt s (2 + microSteps s.cfg (.setout w))) (pin s.cfg .asdo) else 0) } ∧
      out.length = s.cfg.npins ∧
      (∀ x ∈ writtenSignals s.cfg, out.at (pin s.cfg x.1) = w.getLsbD x.2) ∧
      ∀ p, (∀ x ∈ writtenSignals s.cfg, pin s.cfg x.1 ≠ p) → out.at p = s.mem.out.at p

/-- 41_state_port.md R111, R114, R115: the pin events of `SETOUT` are its writes in order; those of `SETRD` are the same
writes, then the sample of TDO, then that of ASDO, which touches no pin where ASDO is absent. -/
def Obligations.StatePortPinEvents : Prop :=
  ∀ (w : StateWord) (s : State), Ready s → ClearRun (.setrd w) s →
    commandTrace (.setout w) s = (writtenSignals s.cfg).map (fun x => PinEvent.write x.1 (w.getLsbD x.2)) ∧
    ∃ tdo asdo, commandTrace (.setrd w) s =
      (writtenSignals s.cfg).map (fun x => PinEvent.write x.1 (w.getLsbD x.2)) ++
        [PinEvent.read .tdo tdo,
          if s.cfg.haveAs || s.cfg.havePs then PinEvent.read .asdo asdo else PinEvent.readConst .asdo] ∧
      ∃ t, exec (.setrd w) s = .next t ∧
        t.rsp = some (0#6 ++ (BitVec.ofBool (if s.cfg.haveAs || s.cfg.havePs then asdo else true) ++ BitVec.ofBool tdo))

/-! ### The Shift Engine -/

/-- 42_shift_engine.md R122, R120: after `SHOUT b` the data-out latch is bit 7 of `b`, the clock latch 0, `SR` 0,
every other latch and register unchanged, no response. The frame's word and its count of clock edges rest on log 11,
13. -/
def Obligations.ShoutResult : Prop :=
  ∀ (b : Byte) (s : State), Ready s → ClearRun (.shout b) s →
    ∃ out, exec (.shout b) s = .next { commandFrame (.shout b) s with mem := { s.mem with out := out }, sr := 0x00#8 } ∧
      out.length = s.cfg.npins ∧
      out.at (pin s.cfg .tdi) = b.getLsbD 7 ∧ out.at (pin s.cfg .tck) = false ∧
      ∀ p, p ≠ pin s.cfg .tdi → p ≠ pin s.cfg .tck → out.at p = s.mem.out.at p

/-- 42_shift_engine.md R121, R122; 70_reset_and_hazards.md R178: the pins of `SHOUT b` after each micro-step: bit `k` stands on
TDI for the four micro-steps of its iteration, the clock is high after its second and third, low after the others. -/
def Obligations.ShoutPinsAtEachMicroStep : Prop :=
  ∀ (b : Byte) (s : State) (n : Nat), Ready s → ClearRun (.shout b) s → 1 ≤ n → n ≤ 33 →
    ∃ u, runUpTo n (.shout b) s = .next u ∧ u.mem.oe = s.mem.oe ∧
      u.mem.out.at (pin s.cfg .tdi) = b.getLsbD ((min n 32 - 1) / 4) ∧
      u.mem.out.at (pin s.cfg .tck) =
        (if n = 1 then s.mem.out.at (pin s.cfg .tck) else decide (n % 4 = 2 ∨ n % 4 = 3)) ∧
      ∀ p, p ≠ pin s.cfg .tdi → p ≠ pin s.cfg .tck → u.mem.out.at p = s.mem.out.at p

/-- 42_shift_engine.md R122, R124: the pin events of `SHOUT b` are `TDI <- b[k]`, `TCK <- 1`, `TCK <- 0` for k from 0 to 7, under
every flag and whatever the inputs do; nothing is read. -/
def Obligations.ShoutPinEvents : Prop :=
  ∀ (b : Byte) (s : State), Ready s → ClearRun (.shout b) s →
    commandTrace (.shout b) s =
      (List.range 8).flatMap fun k =>
        [PinEvent.write .tdi (b.getLsbD k), PinEvent.write .tck true, PinEvent.write .tck false]

/-- 42_shift_engine.md R123: issued with the clock low, a shift command makes exactly 8 rising and 8 falling edges on the clock
line; issued with it high, 7 rising and 8 falling. -/
def Obligations.ClockEdgesOfAShift : Prop :=
  ∀ (b : Byte) (i : Instr) (s : State), (i = .shout b ∨ i = .shio b) → Ready s → ClearRun i s →
    (s.mem.out.at (pin s.cfg .tck) = false →
      risingEdges false (commandTrace i s) = 8 ∧ fallingEdges false (commandTrace i s) = 8) ∧
    (s.mem.out.at (pin s.cfg .tck) = true →
      risingEdges true (commandTrace i s) = 7 ∧ fallingEdges true (commandTrace i s) = 8)

/-- 42_shift_engine.md R126: `SHIO b` responds with the eight samples, the first in bit 0; it leaves the data-out
latch at bit 7 of `b`, the clock latch at 0, and everything else as it was. A sample no one drives is a free value,
whatever it is. Free values: log 8; the frame and the sampling edges: log 11, 13. -/
def Obligations.ShioResult : Prop :=
  ∀ (b : Byte) (s : State), Ready s → ClearRun (.shio b) s →
    ∃ (out : Levels) (r : Byte),
      exec (.shio b) s = .next
        { commandFrame (.shio b) s with
          mem := { s.mem with out := out }
          sr := r
          c := shioSample s 7
          fbsel := decide (selectedFeedback s = .asdo)
          rsp := some r
          draws := s.draws +
            ((List.range 8).map fun j =>
              floats (inputAt s (sampleEdge s.cfg j)) (pin s.cfg (selectedFeedback s))).sum } ∧
      (∀ k, k < 8 → r.getLsbD k = shioSample s k) ∧
      out.length = s.cfg.npins ∧
      out.at (pin s.cfg .tdi) = b.getLsbD 7 ∧ out.at (pin s.cfg .tck) = false ∧
      ∀ p, p ≠ pin s.cfg .tdi → p ≠ pin s.cfg .tck → out.at p = s.mem.out.at p

/-- 42_shift_engine.md R127: where the environment presents the pattern `p` on the selected feedback pin, one bit at each
sample, `SHIO b` responds `p`, whatever `b` is. That no free value is drawn is the model's form of "no sample floats" (log 8);
the sampling edges rest on log 11. -/
def Obligations.ShioReturnsTheExternalPattern : Prop :=
  ∀ (b p : Byte) (s : State), Ready s → ClearRun (.shio b) s →
    (∀ k, k < 8 →
      (inputAt s (sampleEdge s.cfg k)).ext.getD (pin s.cfg (selectedFeedback s)) none = some (p.getLsbD k)) →
    ∃ t, exec (.shio b) s = .next t ∧ t.rsp = some p ∧ t.draws = s.draws

/-- 42_shift_engine.md R128: with the feedback line wired to the data-out line, `SHIO b` responds `b` delayed by one bit
position, the level of TDI at acceptance entering at bit 0; bit 7 of `b` is left on TDI. -/
def Obligations.ShioLoopbackSkew : Prop :=
  ∀ (b : Byte) (s : State), Ready s → ClearRun (.shio b) s → LoopedBack b s →
    ∃ t, exec (.shio b) s = .next t ∧
      t.rsp = some (b.extractLsb' 0 7 ++ BitVec.ofBool (s.mem.out.at (pin s.cfg .tdi))) ∧
      t.rsp = some (BitVec.ofNat 8 (2 * b.toNat + (s.mem.out.at (pin s.cfg .tdi)).toNat)) ∧
      t.mem.out.at (pin s.cfg .tdi) = b.getLsbD 7

/-- 42_shift_engine.md R125, R126, R129; 43_mode_dispatcher.md R144; 10_state.md R34, R38: the registers and pins of `SHIO b`
after the dispatch and `j` micro-steps of iteration `k`. `upc` counts the micro-steps until the last completes the command;
the feedback selection is fixed; `C` is sample `k`; `SR` has been shifted `k` times, `k + 1` from the fourth micro-step on:
below stand the bits of `b` not yet presented, above them the samples taken. Bit `k` stands on TDI from the second
micro-step, the clock is high after the third and fourth; every other latch, nCS among them, and every control register
keeps its value. A sample no one drives is a free value (log 8); the word in `CMD` is log 13, the completion log 11. -/
def Obligations.ShioPinsAtEachMicroStep : Prop :=
  ∀ (b : Byte) (s : State) (k j : Nat), Ready s → ClearRun (.shio b) s → k < 8 → 1 ≤ j → j ≤ 5 →
    ∃ u, runUpTo (s.cfg.haveAs.toNat + 5 * k + j) (.shio b) s = .next u ∧ u.mem.oe = s.mem.oe ∧
      u.clkcfg = s.clkcfg ∧ u.busmode = s.busmode ∧ u.vregctl = s.vregctl ∧
      u.cmd = presentedWord (.shio b) s ∧
      u.busy = decide (5 * k + j < 40) ∧
      u.upc.toNat = (if 5 * k + j < 40 then s.cfg.haveAs.toNat + 5 * k + j else 0) ∧
      u.fbsel = decide (selectedFeedback s = .asdo) ∧
      u.c = shioSample s k ∧
      (∀ m, m < 8 → u.sr.getLsbD m =
        (if m + (if 4 ≤ j then k + 1 else k) < 8 then b.getLsbD (m + (if 4 ≤ j then k + 1 else k))
         else shioSample s (m + (if 4 ≤ j then k + 1 else k) - 8))) ∧
      u.mem.out.at (pin s.cfg .tdi) =
        (if 2 ≤ j then b.getLsbD k else if k = 0 then s.mem.out.at (pin s.cfg .tdi) else b.getLsbD (k - 1)) ∧
      u.mem.out.at (pin s.cfg .tck) =
        (if j = 3 ∨ j = 4 then true
         else if j = 5 then false else decide (k = 0) && s.mem.out.at (pin s.cfg .tck)) ∧
      ∀ p, p ≠ pin s.cfg .tdi → p ≠ pin s.cfg .tck → u.mem.out.at p = s.mem.out.at p

/-- 42_shift_engine.md R125, R129; 43_mode_dispatcher.md R140, R141, R143, R145: the pin events of `SHIO b`: with AS-mode, one
read of nCS; then eight times sample, present, raise, lower, every sample of the one selected pin, no other pin read. -/
def Obligations.ShioPinEvents : Prop :=
  ∀ (b : Byte) (s : State), Ready s → ClearRun (.shio b) s →
    commandTrace (.shio b) s =
      (if s.cfg.haveAs then [PinEvent.read .ncs (s.mem.out.at (pin s.cfg .ncs))] else []) ++
      (List.range 8).flatMap fun k =>
        [PinEvent.read (selectedFeedback s) (shioSample s k), PinEvent.write .tdi (b.getLsbD k),
          PinEvent.write .tck true, PinEvent.write .tck false]

/-! ### The Mode Dispatcher -/

/-- 43_mode_dispatcher.md R140, R141: the dispatch micro-step selects ASDO iff nCS reads 0 and writes no pin; it is the first
micro-step of `SHIO` with AS-mode, and stands nowhere else. -/
def Obligations.DispatchSelectsTheFeedback : Prop :=
  (∀ (e : EdgeInput) (s : State),
    (perform .dispatch e s).fbsel = decide ((sigRead e .ncs s).1 = false) ∧
    (perform .dispatch e s).mem = s.mem ∧
    perform .dispatch e s = { s with fbsel := (perform .dispatch e s).fbsel, draws := (perform .dispatch e s).draws }) ∧
  ∀ (i : Instr) (cfg : Cfg) (n : Nat),
    (programOf i cfg)[n]? = some .dispatch ↔ n = 0 ∧ cfg.haveAs = true ∧ ∃ b, i = .shio b

/-- 43_mode_dispatcher.md R142, R145, R143, R141: a `SHIO` that follows a `SETOUT w` or a `SETRD w` samples, with AS-mode, ASDO if
bit 3 of `w` is 0 and TDO if it is 1, and without AS-mode TDO whatever `w` is. Stated of the `SHIO` that runs: `FBSEL` after
it; its pin events, which begin, with AS-mode only, with the one read of nCS, returning bit 3 of `w`, and in which all eight
samples read the one selected pin; and its response, the bits those reads returned. The selected signal exists. A sample no
one drives is a free value (log 8); the clock edges rest on log 11. -/
def Obligations.OutputWordSelectsTheFeedback : Prop :=
  ∀ (i : Instr) (w : StateWord) (b : Byte) (s : State), (i = .setout w ∨ i = .setrd w) → Ready s →
    ClearFor (2 + microSteps s.cfg i + microSteps s.cfg (.shio b)) s →
    ∃ t u fb r,
      fb = (if s.cfg.haveAs = true ∧ w.getLsbD 3 = false then Signal.asdo else Signal.tdo) ∧
      sigExists s.cfg fb = true ∧
      exec i s = .next t ∧ exec (.shio b) t = .next u ∧
      u.fbsel = decide (fb = .asdo) ∧
      u.rsp = some r ∧
      commandTrace (.shio b) t =
        (if s.cfg.haveAs then [PinEvent.read .ncs (w.getLsbD 3)] else []) ++
        (List.range 8).flatMap fun k =>
          [PinEvent.read fb (r.getLsbD k), PinEvent.write .tdi (b.getLsbD k),
            PinEvent.write .tck true, PinEvent.write .tck false]

/-! ### The Signal Map and the pins -/

/-- 20_memory.md R56, R51: in a valid configuration no pin is in both masks; a pin is in `JTAG_MIN_MASK` iff it is the pin of TDI,
TCK, TMS or JTAG_EN, and then it is in `OUT_MASK`; the pin of an existing signal is in the mask of its direction, and in no
other. -/
def Obligations.MasksOfAValidConfiguration : Prop :=
  ∀ cfg : Cfg, valid cfg = true →
    (∀ p, ¬ ((inMask cfg).at p = true ∧ (outMask cfg).at p = true)) ∧
    (∀ p, (jtagMinMask cfg).at p = true ↔
      (p = pin cfg .tdi ∨ p = pin cfg .tck ∨ p = pin cfg .tms ∨ p = pin cfg .jtagEn)) ∧
    (∀ p, (jtagMinMask cfg).at p = true → (outMask cfg).at p = true) ∧
    ∀ g, sigExists cfg g = true →
      (outMask cfg).at (pin cfg g) = isOutput g ∧ (inMask cfg).at (pin cfg g) = !isOutput g

/-- 20_memory.md R53: a signal that does not exist reads 1 and touches no pin, ignores writes, and puts no pin in a mask. -/
def Obligations.AbsentSignalReadsOneIgnoresWrites : Prop :=
  (∀ (g : Signal) (e : EdgeInput) (v : Bool) (s : State), sigExists s.cfg g = false →
    sigRead e g s = (true, s) ∧ sigWrite g v s = s) ∧
  ∀ (cfg : Cfg) (p : Nat), (∀ g, sigExists cfg g = true → pin cfg g ≠ p) →
    (outMask cfg).at p = false ∧ (inMask cfg).at p = false

/-- 20_memory.md R58, R59: the level of a pin is its latch where CORE drives it, else what the environment applies, else a free
value, the next one at every read; a read changes no register. -/
def Obligations.LevelOfAPin : Prop :=
  ∀ (e : EdgeInput) (p : Nat) (s : State),
    (s.mem.oe.at p = true → memRead e p s = (s.mem.out.at p, s)) ∧
    (∀ v, s.mem.oe.at p = false → e.ext.getD p none = some v → memRead e p s = (v, s)) ∧
    (s.mem.oe.at p = false → e.ext.getD p none = none →
      memRead e p s = (Config.floatLevel s.draws, { s with draws := s.draws + 1 }))

/-- 20_memory.md R59, R61: a write of a pin changes its latch, that of no other pin, and no other register; it is idempotent. -/
def Obligations.WriteOfAPin : Prop :=
  ∀ (p : Nat) (v : Bool) (s : State), p < s.mem.out.length →
    (memWrite p v s).mem.out.at p = v ∧
    (∀ q, q ≠ p → (memWrite p v s).mem.out.at q = s.mem.out.at q) ∧
    memWrite p v s = { s with mem := { s.mem with out := (memWrite p v s).mem.out } } ∧
    (s.mem.out.at p = v → memWrite p v s = s)

/-! ### Reset -/

/-- 10_state.md R41: after reset every pin's latch is `OUT_RESET`, no pin is driven, CORE is idle at `upc` 0, and, in every valid
configuration, not Initialised. -/
def Obligations.StateAfterReset : Prop :=
  ∀ (cfg : Cfg) (u : PowerOn),
    (∀ p, p < cfg.npins → (State.resetOf cfg u).mem.out.at p = cfg.outReset.at p) ∧
    (∀ p, (State.resetOf cfg u).mem.oe.at p = false) ∧
    (State.resetOf cfg u).busy = false ∧ (State.resetOf cfg u).upc = 0 ∧ (State.resetOf cfg u).rsp = none ∧
    (valid cfg = true → initialised (State.resetOf cfg u) = false)

/-- 60_exceptions.md R154; 70_reset_and_hazards.md R170: `rst` acts at any moment and wins over whatever else the clock edge would
do. First, over every step: a micro-step, an idle edge, the edge of a presented command, that of a reserved word. Then, over
a command as a whole: at its acceptance, and at any of its micro-steps. The state is the reset state and the command is lost
without a response. That the unspecified registers are free values, and what becomes of the queue and the script, are the
model's (log 5, 14, 16, 26). -/
def Obligations.ResetWinsAndLosesTheCommand : Prop :=
  (∀ s : State, valid s.cfg = true → contends s.mem.oe (inputAt s 0) = false → (inputAt s 0).rst = true →
    ∃ v : PowerOn, step s = .next
      { State.resetOf s.cfg v with
        cmds := (if s.busy then s.cmds else s.cmds.tail), env := s.env.tail, draws := s.draws + 1 }) ∧
  (∀ (i : Instr) (s : State), valid s.cfg = true → s.busy = false →
    contends s.mem.oe (inputAt s 0) = false → (inputAt s 0).rst = true →
    ∃ v : PowerOn, exec i s = .next
      { State.resetOf s.cfg v with
        cmds := (takePresented i s).cmds, env := s.env.tail, draws := s.draws + 1 }) ∧
  ∀ (i : Instr) (s u : State) (n : Nat), n < longestProgram → runUpTo n i s = .next u → u.busy = true →
    contends u.mem.oe (inputAt u 0) = false → (inputAt u 0).rst = true →
    ∃ v : PowerOn, exec i s = .next
      { State.resetOf s.cfg v with cmds := u.cmds, env := u.env.tail, draws := u.draws + 1 }

/-! ### Refusals -/

/-- 00_scope.md R8; 20_memory.md R55: a model gives an invalid configuration no meaning: every step is refused.
Refusing each step is the model's form of it (log 17). -/
def Obligations.InvalidConfigurationIsRefused : Prop :=
  ∀ s : State, valid s.cfg = false → step s = .refused .invalidConfiguration

/-- 20_memory.md R58; 70_reset_and_hazards.md R180: where the environment drives a pin that CORE drives, the run is
refused. Refusing at every edge and for every level is the model's reading (log 9). -/
def Obligations.ContentionIsRefused : Prop :=
  ∀ (s : State) (p : Nat) (v : Bool), valid s.cfg = true → s.mem.oe.at p = true →
    (inputAt s 0).ext.getD p none = some v → step s = .refused .contention

/-- 30_encoding.md R88: a reserved word presented by the host is refused. The queue and the edge of the refusal are
the model's (log 12, 14). -/
def Obligations.ReservedWordIsRefused : Prop :=
  ∀ (s : State) (w : CmdWord) (ws : List CmdWord), Idle s → s.cmds = w :: ws → 0x500 ≤ w.toNat →
    EdgeClear s.mem.oe (inputAt s 0) → step s = .refused .reservedCommand

/-- 70_reset_and_hazards.md R171: a command other than `INIT` presented while not Initialised is refused, right after a reset
among others; `INIT` itself is admitted there. -/
def Obligations.OnlyInitIsAdmittedBeforeInit : Prop :=
  (∀ (i : Instr) (s : State), i ≠ .init → Idle s → initialised s = false → EdgeClear s.mem.oe (inputAt s 0) →
    exec i s = .refused .notInitialised) ∧
  (∀ (i : Instr) (cfg : Cfg) (u : PowerOn), i ≠ .init → valid cfg = true →
    exec i (State.resetOf cfg u) = .refused .notInitialised) ∧
  ∀ (cfg : Cfg) (u : PowerOn), valid cfg = true →
    ∃ t, exec .init (State.resetOf cfg u) = .next t ∧ initialised t = true

/-- 70_reset_and_hazards.md R188: whenever `BUSY = 1` a step is enabled, unless the environment contends. -/
def Obligations.BusySequencerAlwaysMoves : Prop :=
  ∀ s : State, Inv s → s.busy = true → contends s.mem.oe (inputAt s 0) = false → ∃ t, step s = .next t

/-! ### Invariants of the machine -/

/-- The invariant holds after reset, for every valid configuration and all values of what the spec leaves unspecified. -/
def Obligations.InvariantHoldsAfterReset : Prop :=
  (∀ (cfg : Cfg) (u : PowerOn), valid cfg = true → Inv (State.resetOf cfg u)) ∧ Inv State.reset

/-- Every step keeps the invariant (10_state.md R22, R34, R41; 43_mode_dispatcher.md R145). -/
def Obligations.EveryStepKeepsTheInvariant : Prop :=
  ∀ s t : State, Inv s → step s = .next t → Inv t

/-- 20_memory.md R57; 40_initializer.md R102: every step keeps the latch of a pin no written signal owns, JTAG_EN's among them,
at `OUT_RESET`; a configuration never changes. -/
def Obligations.UnwrittenLatchesKeepOutReset : Prop :=
  (∀ (cfg : Cfg) (u : PowerOn), UnwrittenKeepReset (State.resetOf cfg u)) ∧
  ∀ s t : State, Inv s → UnwrittenKeepReset s → step s = .next t →
    UnwrittenKeepReset t ∧ t.cfg = s.cfg ∧ (NoReset s → t.mem.out.at (pin s.cfg .jtagEn) = s.mem.out.at (pin s.cfg .jtagEn))

/-- 10_state.md R39: no hidden state: what a command does depends on its word, `CFG`, the persistent registers and the outside
only, not on what earlier commands left in `CMD`, `SR`, `C`, `FBSEL`, `upc`, or on an earlier response. -/
def Obligations.NoHiddenStateSurvivesACommand : Prop :=
  ∀ (i : Instr) (s s' : State), s.busy = false → s'.busy = false → s'.cfg = s.cfg → persistent s' = persistent s →
    s'.cmds = s.cmds → s'.env = s.env → s'.draws = s.draws → exec i s' = exec i s
end

