-- ==== Sys2Proof/Laws/State.lean ====
section
/-! SUPPORT. One lemma for each field of State after each update of it, true by `rfl`, so that no proof unfolds a record
update; and the fields the conditional operations leave alone. -/

namespace Sys2Proof.Machine

variable (s : State)

@[simp] theorem passEdge_cfg : (passEdge s).cfg = s.cfg := rfl
@[simp] theorem passEdge_mem : (passEdge s).mem = s.mem := rfl
@[simp] theorem passEdge_clkcfg : (passEdge s).clkcfg = s.clkcfg := rfl
@[simp] theorem passEdge_busmode : (passEdge s).busmode = s.busmode := rfl
@[simp] theorem passEdge_vregctl : (passEdge s).vregctl = s.vregctl := rfl
@[simp] theorem passEdge_busy : (passEdge s).busy = s.busy := rfl
@[simp] theorem passEdge_cmd : (passEdge s).cmd = s.cmd := rfl
@[simp] theorem passEdge_upc : (passEdge s).upc = s.upc := rfl
@[simp] theorem passEdge_sr : (passEdge s).sr = s.sr := rfl
@[simp] theorem passEdge_c : (passEdge s).c = s.c := rfl
@[simp] theorem passEdge_fbsel : (passEdge s).fbsel = s.fbsel := rfl
@[simp] theorem passEdge_rsp : (passEdge s).rsp = none := rfl
@[simp] theorem passEdge_cmds : (passEdge s).cmds = s.cmds := rfl
@[simp] theorem passEdge_env : (passEdge s).env = s.env.tail := rfl
@[simp] theorem passEdge_draws : (passEdge s).draws = s.draws := rfl

@[simp] theorem memWrite_cfg (p : Nat) (v : Bool) : (memWrite p v s).cfg = s.cfg := rfl
@[simp] theorem memWrite_mem (p : Nat) (v : Bool) : (memWrite p v s).mem = { s.mem with out := s.mem.out.set p v } := rfl
@[simp] theorem memWrite_clkcfg (p : Nat) (v : Bool) : (memWrite p v s).clkcfg = s.clkcfg := rfl
@[simp] theorem memWrite_busmode (p : Nat) (v : Bool) : (memWrite p v s).busmode = s.busmode := rfl
@[simp] theorem memWrite_vregctl (p : Nat) (v : Bool) : (memWrite p v s).vregctl = s.vregctl := rfl
@[simp] theorem memWrite_busy (p : Nat) (v : Bool) : (memWrite p v s).busy = s.busy := rfl
@[simp] theorem memWrite_cmd (p : Nat) (v : Bool) : (memWrite p v s).cmd = s.cmd := rfl
@[simp] theorem memWrite_upc (p : Nat) (v : Bool) : (memWrite p v s).upc = s.upc := rfl
@[simp] theorem memWrite_sr (p : Nat) (v : Bool) : (memWrite p v s).sr = s.sr := rfl
@[simp] theorem memWrite_c (p : Nat) (v : Bool) : (memWrite p v s).c = s.c := rfl
@[simp] theorem memWrite_fbsel (p : Nat) (v : Bool) : (memWrite p v s).fbsel = s.fbsel := rfl
@[simp] theorem memWrite_rsp (p : Nat) (v : Bool) : (memWrite p v s).rsp = s.rsp := rfl
@[simp] theorem memWrite_cmds (p : Nat) (v : Bool) : (memWrite p v s).cmds = s.cmds := rfl
@[simp] theorem memWrite_env (p : Nat) (v : Bool) : (memWrite p v s).env = s.env := rfl
@[simp] theorem memWrite_draws (p : Nat) (v : Bool) : (memWrite p v s).draws = s.draws := rfl

@[simp] theorem setDirections_cfg (v : Levels) : (setDirections v s).cfg = s.cfg := rfl
@[simp] theorem setDirections_mem (v : Levels) : (setDirections v s).mem = { s.mem with oe := v } := rfl
@[simp] theorem setDirections_clkcfg (v : Levels) : (setDirections v s).clkcfg = s.clkcfg := rfl
@[simp] theorem setDirections_busmode (v : Levels) : (setDirections v s).busmode = s.busmode := rfl
@[simp] theorem setDirections_vregctl (v : Levels) : (setDirections v s).vregctl = s.vregctl := rfl
@[simp] theorem setDirections_busy (v : Levels) : (setDirections v s).busy = s.busy := rfl
@[simp] theorem setDirections_cmd (v : Levels) : (setDirections v s).cmd = s.cmd := rfl
@[simp] theorem setDirections_upc (v : Levels) : (setDirections v s).upc = s.upc := rfl
@[simp] theorem setDirections_sr (v : Levels) : (setDirections v s).sr = s.sr := rfl
@[simp] theorem setDirections_c (v : Levels) : (setDirections v s).c = s.c := rfl
@[simp] theorem setDirections_fbsel (v : Levels) : (setDirections v s).fbsel = s.fbsel := rfl
@[simp] theorem setDirections_rsp (v : Levels) : (setDirections v s).rsp = s.rsp := rfl
@[simp] theorem setDirections_cmds (v : Levels) : (setDirections v s).cmds = s.cmds := rfl
@[simp] theorem setDirections_env (v : Levels) : (setDirections v s).env = s.env := rfl
@[simp] theorem setDirections_draws (v : Levels) : (setDirections v s).draws = s.draws := rfl

@[simp] theorem loadCommand_cfg (w : CmdWord) : (loadCommand w s).cfg = s.cfg := rfl
@[simp] theorem loadCommand_mem (w : CmdWord) : (loadCommand w s).mem = s.mem := rfl
@[simp] theorem loadCommand_clkcfg (w : CmdWord) : (loadCommand w s).clkcfg = s.clkcfg := rfl
@[simp] theorem loadCommand_busmode (w : CmdWord) : (loadCommand w s).busmode = s.busmode := rfl
@[simp] theorem loadCommand_vregctl (w : CmdWord) : (loadCommand w s).vregctl = s.vregctl := rfl
@[simp] theorem loadCommand_busy (w : CmdWord) : (loadCommand w s).busy = true := rfl
@[simp] theorem loadCommand_cmd (w : CmdWord) : (loadCommand w s).cmd = w := rfl
@[simp] theorem loadCommand_upc (w : CmdWord) : (loadCommand w s).upc = 0 := rfl
@[simp] theorem loadCommand_sr (w : CmdWord) : (loadCommand w s).sr = dataOf w := rfl
@[simp] theorem loadCommand_c (w : CmdWord) : (loadCommand w s).c = false := rfl
@[simp] theorem loadCommand_fbsel (w : CmdWord) : (loadCommand w s).fbsel = false := rfl
@[simp] theorem loadCommand_rsp (w : CmdWord) : (loadCommand w s).rsp = s.rsp := rfl
@[simp] theorem loadCommand_cmds (w : CmdWord) : (loadCommand w s).cmds = s.cmds := rfl
@[simp] theorem loadCommand_env (w : CmdWord) : (loadCommand w s).env = s.env := rfl
@[simp] theorem loadCommand_draws (w : CmdWord) : (loadCommand w s).draws = s.draws := rfl

@[simp] theorem nextUpc_cfg : (nextUpc s).cfg = s.cfg := rfl
@[simp] theorem nextUpc_mem : (nextUpc s).mem = s.mem := rfl
@[simp] theorem nextUpc_clkcfg : (nextUpc s).clkcfg = s.clkcfg := rfl
@[simp] theorem nextUpc_busmode : (nextUpc s).busmode = s.busmode := rfl
@[simp] theorem nextUpc_vregctl : (nextUpc s).vregctl = s.vregctl := rfl
@[simp] theorem nextUpc_busy : (nextUpc s).busy = s.busy := rfl
@[simp] theorem nextUpc_cmd : (nextUpc s).cmd = s.cmd := rfl
@[simp] theorem nextUpc_upc : (nextUpc s).upc = s.upc + 1 := rfl
@[simp] theorem nextUpc_sr : (nextUpc s).sr = s.sr := rfl
@[simp] theorem nextUpc_c : (nextUpc s).c = s.c := rfl
@[simp] theorem nextUpc_fbsel : (nextUpc s).fbsel = s.fbsel := rfl
@[simp] theorem nextUpc_rsp : (nextUpc s).rsp = s.rsp := rfl
@[simp] theorem nextUpc_cmds : (nextUpc s).cmds = s.cmds := rfl
@[simp] theorem nextUpc_env : (nextUpc s).env = s.env := rfl
@[simp] theorem nextUpc_draws : (nextUpc s).draws = s.draws := rfl

@[simp] theorem complete_cfg : (complete s).cfg = s.cfg := rfl
@[simp] theorem complete_mem : (complete s).mem = s.mem := rfl
@[simp] theorem complete_clkcfg : (complete s).clkcfg = s.clkcfg := rfl
@[simp] theorem complete_busmode : (complete s).busmode = s.busmode := rfl
@[simp] theorem complete_vregctl : (complete s).vregctl = s.vregctl := rfl
@[simp] theorem complete_busy : (complete s).busy = false := rfl
@[simp] theorem complete_cmd : (complete s).cmd = s.cmd := rfl
@[simp] theorem complete_upc : (complete s).upc = 0 := rfl
@[simp] theorem complete_sr : (complete s).sr = s.sr := rfl
@[simp] theorem complete_c : (complete s).c = s.c := rfl
@[simp] theorem complete_fbsel : (complete s).fbsel = s.fbsel := rfl
@[simp] theorem complete_rsp : (complete s).rsp = responseOf s := rfl
@[simp] theorem complete_cmds : (complete s).cmds = s.cmds := rfl
@[simp] theorem complete_env : (complete s).env = s.env := rfl
@[simp] theorem complete_draws : (complete s).draws = s.draws := rfl

@[simp] theorem resetEvent_cfg : (resetEvent s).cfg = s.cfg := rfl
@[simp] theorem resetEvent_mem : (resetEvent s).mem = { out := (List.range s.cfg.npins).map s.cfg.outReset.at, oe := List.replicate s.cfg.npins false } := rfl
@[simp] theorem resetEvent_clkcfg : (resetEvent s).clkcfg = Config.freeClkcfg s.draws := rfl
@[simp] theorem resetEvent_busmode : (resetEvent s).busmode = Config.freeBusmode s.draws := rfl
@[simp] theorem resetEvent_vregctl : (resetEvent s).vregctl = Config.freeVregctl s.draws := rfl
@[simp] theorem resetEvent_busy : (resetEvent s).busy = false := rfl
@[simp] theorem resetEvent_cmd : (resetEvent s).cmd = Config.freeCmd s.draws := rfl
@[simp] theorem resetEvent_upc : (resetEvent s).upc = 0 := rfl
@[simp] theorem resetEvent_sr : (resetEvent s).sr = Config.freeSr s.draws := rfl
@[simp] theorem resetEvent_c : (resetEvent s).c = Config.freeC s.draws := rfl
@[simp] theorem resetEvent_fbsel : (resetEvent s).fbsel = Config.freeFbsel s.draws := rfl
@[simp] theorem resetEvent_rsp : (resetEvent s).rsp = none := rfl
@[simp] theorem resetEvent_cmds : (resetEvent s).cmds = s.cmds := rfl
@[simp] theorem resetEvent_env : (resetEvent s).env = s.env.tail := rfl
@[simp] theorem resetEvent_draws : (resetEvent s).draws = s.draws + 1 := rfl

@[simp] theorem sigWrite_cfg (g : Signal) (v : Bool) : (sigWrite g v s).cfg = s.cfg := by unfold sigWrite; split <;> rfl
@[simp] theorem sigWrite_clkcfg (g : Signal) (v : Bool) : (sigWrite g v s).clkcfg = s.clkcfg := by unfold sigWrite; split <;> rfl
@[simp] theorem sigWrite_busmode (g : Signal) (v : Bool) : (sigWrite g v s).busmode = s.busmode := by unfold sigWrite; split <;> rfl
@[simp] theorem sigWrite_vregctl (g : Signal) (v : Bool) : (sigWrite g v s).vregctl = s.vregctl := by unfold sigWrite; split <;> rfl
@[simp] theorem sigWrite_busy (g : Signal) (v : Bool) : (sigWrite g v s).busy = s.busy := by unfold sigWrite; split <;> rfl
@[simp] theorem sigWrite_cmd (g : Signal) (v : Bool) : (sigWrite g v s).cmd = s.cmd := by unfold sigWrite; split <;> rfl
@[simp] theorem sigWrite_upc (g : Signal) (v : Bool) : (sigWrite g v s).upc = s.upc := by unfold sigWrite; split <;> rfl
@[simp] theorem sigWrite_sr (g : Signal) (v : Bool) : (sigWrite g v s).sr = s.sr := by unfold sigWrite; split <;> rfl
@[simp] theorem sigWrite_c (g : Signal) (v : Bool) : (sigWrite g v s).c = s.c := by unfold sigWrite; split <;> rfl
@[simp] theorem sigWrite_fbsel (g : Signal) (v : Bool) : (sigWrite g v s).fbsel = s.fbsel := by unfold sigWrite; split <;> rfl
@[simp] theorem sigWrite_rsp (g : Signal) (v : Bool) : (sigWrite g v s).rsp = s.rsp := by unfold sigWrite; split <;> rfl
@[simp] theorem sigWrite_cmds (g : Signal) (v : Bool) : (sigWrite g v s).cmds = s.cmds := by unfold sigWrite; split <;> rfl
@[simp] theorem sigWrite_env (g : Signal) (v : Bool) : (sigWrite g v s).env = s.env := by unfold sigWrite; split <;> rfl
@[simp] theorem sigWrite_draws (g : Signal) (v : Bool) : (sigWrite g v s).draws = s.draws := by unfold sigWrite; split <;> rfl

@[simp] theorem memRead_state_cfg (e : EdgeInput) (p : Nat) : (memRead e p s).2.cfg = s.cfg := by unfold memRead; split <;> [rfl; (split <;> rfl)]
@[simp] theorem memRead_state_mem (e : EdgeInput) (p : Nat) : (memRead e p s).2.mem = s.mem := by unfold memRead; split <;> [rfl; (split <;> rfl)]
@[simp] theorem memRead_state_clkcfg (e : EdgeInput) (p : Nat) : (memRead e p s).2.clkcfg = s.clkcfg := by unfold memRead; split <;> [rfl; (split <;> rfl)]
@[simp] theorem memRead_state_busmode (e : EdgeInput) (p : Nat) : (memRead e p s).2.busmode = s.busmode := by unfold memRead; split <;> [rfl; (split <;> rfl)]
@[simp] theorem memRead_state_vregctl (e : EdgeInput) (p : Nat) : (memRead e p s).2.vregctl = s.vregctl := by unfold memRead; split <;> [rfl; (split <;> rfl)]
@[simp] theorem memRead_state_busy (e : EdgeInput) (p : Nat) : (memRead e p s).2.busy = s.busy := by unfold memRead; split <;> [rfl; (split <;> rfl)]
@[simp] theorem memRead_state_cmd (e : EdgeInput) (p : Nat) : (memRead e p s).2.cmd = s.cmd := by unfold memRead; split <;> [rfl; (split <;> rfl)]
@[simp] theorem memRead_state_upc (e : EdgeInput) (p : Nat) : (memRead e p s).2.upc = s.upc := by unfold memRead; split <;> [rfl; (split <;> rfl)]
@[simp] theorem memRead_state_sr (e : EdgeInput) (p : Nat) : (memRead e p s).2.sr = s.sr := by unfold memRead; split <;> [rfl; (split <;> rfl)]
@[simp] theorem memRead_state_c (e : EdgeInput) (p : Nat) : (memRead e p s).2.c = s.c := by unfold memRead; split <;> [rfl; (split <;> rfl)]
@[simp] theorem memRead_state_fbsel (e : EdgeInput) (p : Nat) : (memRead e p s).2.fbsel = s.fbsel := by unfold memRead; split <;> [rfl; (split <;> rfl)]
@[simp] theorem memRead_state_rsp (e : EdgeInput) (p : Nat) : (memRead e p s).2.rsp = s.rsp := by unfold memRead; split <;> [rfl; (split <;> rfl)]
@[simp] theorem memRead_state_cmds (e : EdgeInput) (p : Nat) : (memRead e p s).2.cmds = s.cmds := by unfold memRead; split <;> [rfl; (split <;> rfl)]
@[simp] theorem memRead_state_env (e : EdgeInput) (p : Nat) : (memRead e p s).2.env = s.env := by unfold memRead; split <;> [rfl; (split <;> rfl)]

@[simp] theorem sigRead_state_cfg (e : EdgeInput) (g : Signal) : (sigRead e g s).2.cfg = s.cfg := by unfold sigRead; split <;> simp
@[simp] theorem sigRead_state_mem (e : EdgeInput) (g : Signal) : (sigRead e g s).2.mem = s.mem := by unfold sigRead; split <;> simp
@[simp] theorem sigRead_state_clkcfg (e : EdgeInput) (g : Signal) : (sigRead e g s).2.clkcfg = s.clkcfg := by unfold sigRead; split <;> simp
@[simp] theorem sigRead_state_busmode (e : EdgeInput) (g : Signal) : (sigRead e g s).2.busmode = s.busmode := by unfold sigRead; split <;> simp
@[simp] theorem sigRead_state_vregctl (e : EdgeInput) (g : Signal) : (sigRead e g s).2.vregctl = s.vregctl := by unfold sigRead; split <;> simp
@[simp] theorem sigRead_state_busy (e : EdgeInput) (g : Signal) : (sigRead e g s).2.busy = s.busy := by unfold sigRead; split <;> simp
@[simp] theorem sigRead_state_cmd (e : EdgeInput) (g : Signal) : (sigRead e g s).2.cmd = s.cmd := by unfold sigRead; split <;> simp
@[simp] theorem sigRead_state_upc (e : EdgeInput) (g : Signal) : (sigRead e g s).2.upc = s.upc := by unfold sigRead; split <;> simp
@[simp] theorem sigRead_state_sr (e : EdgeInput) (g : Signal) : (sigRead e g s).2.sr = s.sr := by unfold sigRead; split <;> simp
@[simp] theorem sigRead_state_c (e : EdgeInput) (g : Signal) : (sigRead e g s).2.c = s.c := by unfold sigRead; split <;> simp
@[simp] theorem sigRead_state_fbsel (e : EdgeInput) (g : Signal) : (sigRead e g s).2.fbsel = s.fbsel := by unfold sigRead; split <;> simp
@[simp] theorem sigRead_state_rsp (e : EdgeInput) (g : Signal) : (sigRead e g s).2.rsp = s.rsp := by unfold sigRead; split <;> simp
@[simp] theorem sigRead_state_cmds (e : EdgeInput) (g : Signal) : (sigRead e g s).2.cmds = s.cmds := by unfold sigRead; split <;> simp
@[simp] theorem sigRead_state_env (e : EdgeInput) (g : Signal) : (sigRead e g s).2.env = s.env := by unfold sigRead; split <;> simp

@[simp] theorem takePresented_cfg (i : Instr) : (takePresented i s).cfg = s.cfg := by unfold takePresented; split <;> [(split <;> rfl); rfl]
@[simp] theorem takePresented_mem (i : Instr) : (takePresented i s).mem = s.mem := by unfold takePresented; split <;> [(split <;> rfl); rfl]
@[simp] theorem takePresented_clkcfg (i : Instr) : (takePresented i s).clkcfg = s.clkcfg := by unfold takePresented; split <;> [(split <;> rfl); rfl]
@[simp] theorem takePresented_busmode (i : Instr) : (takePresented i s).busmode = s.busmode := by unfold takePresented; split <;> [(split <;> rfl); rfl]
@[simp] theorem takePresented_vregctl (i : Instr) : (takePresented i s).vregctl = s.vregctl := by unfold takePresented; split <;> [(split <;> rfl); rfl]
@[simp] theorem takePresented_busy (i : Instr) : (takePresented i s).busy = s.busy := by unfold takePresented; split <;> [(split <;> rfl); rfl]
@[simp] theorem takePresented_cmd (i : Instr) : (takePresented i s).cmd = s.cmd := by unfold takePresented; split <;> [(split <;> rfl); rfl]
@[simp] theorem takePresented_upc (i : Instr) : (takePresented i s).upc = s.upc := by unfold takePresented; split <;> [(split <;> rfl); rfl]
@[simp] theorem takePresented_sr (i : Instr) : (takePresented i s).sr = s.sr := by unfold takePresented; split <;> [(split <;> rfl); rfl]
@[simp] theorem takePresented_c (i : Instr) : (takePresented i s).c = s.c := by unfold takePresented; split <;> [(split <;> rfl); rfl]
@[simp] theorem takePresented_fbsel (i : Instr) : (takePresented i s).fbsel = s.fbsel := by unfold takePresented; split <;> [(split <;> rfl); rfl]
@[simp] theorem takePresented_rsp (i : Instr) : (takePresented i s).rsp = s.rsp := by unfold takePresented; split <;> [(split <;> rfl); rfl]
@[simp] theorem takePresented_env (i : Instr) : (takePresented i s).env = s.env := by unfold takePresented; split <;> [(split <;> rfl); rfl]
@[simp] theorem takePresented_draws (i : Instr) : (takePresented i s).draws = s.draws := by unfold takePresented; split <;> [(split <;> rfl); rfl]

@[simp] theorem perform_cfg (m : Micro) (e : EdgeInput) : (perform m e s).cfg = s.cfg := by cases m <;> simp [perform]
@[simp] theorem perform_busy (m : Micro) (e : EdgeInput) : (perform m e s).busy = s.busy := by cases m <;> simp [perform]
@[simp] theorem perform_cmd (m : Micro) (e : EdgeInput) : (perform m e s).cmd = s.cmd := by cases m <;> simp [perform]
@[simp] theorem perform_upc (m : Micro) (e : EdgeInput) : (perform m e s).upc = s.upc := by cases m <;> simp [perform]
@[simp] theorem perform_rsp (m : Micro) (e : EdgeInput) : (perform m e s).rsp = s.rsp := by cases m <;> simp [perform]
@[simp] theorem perform_cmds (m : Micro) (e : EdgeInput) : (perform m e s).cmds = s.cmds := by cases m <;> simp [perform]
@[simp] theorem perform_env (m : Micro) (e : EdgeInput) : (perform m e s).env = s.env := by cases m <;> simp [perform]

@[simp] theorem advance_cfg (n : Nat) : (advance n s).cfg = s.cfg := by unfold advance; split <;> rfl
@[simp] theorem advance_mem (n : Nat) : (advance n s).mem = s.mem := by unfold advance; split <;> rfl
@[simp] theorem advance_clkcfg (n : Nat) : (advance n s).clkcfg = s.clkcfg := by unfold advance; split <;> rfl
@[simp] theorem advance_busmode (n : Nat) : (advance n s).busmode = s.busmode := by unfold advance; split <;> rfl
@[simp] theorem advance_vregctl (n : Nat) : (advance n s).vregctl = s.vregctl := by unfold advance; split <;> rfl
@[simp] theorem advance_cmd (n : Nat) : (advance n s).cmd = s.cmd := by unfold advance; split <;> rfl
@[simp] theorem advance_sr (n : Nat) : (advance n s).sr = s.sr := by unfold advance; split <;> rfl
@[simp] theorem advance_c (n : Nat) : (advance n s).c = s.c := by unfold advance; split <;> rfl
@[simp] theorem advance_fbsel (n : Nat) : (advance n s).fbsel = s.fbsel := by unfold advance; split <;> rfl
@[simp] theorem advance_cmds (n : Nat) : (advance n s).cmds = s.cmds := by unfold advance; split <;> rfl
@[simp] theorem advance_env (n : Nat) : (advance n s).env = s.env := by unfold advance; split <;> rfl
@[simp] theorem advance_draws (n : Nat) : (advance n s).draws = s.draws := by unfold advance; split <;> rfl

end Sys2Proof.Machine
end

