-- ==== Sys2Proof/Laws/SignalMap.lean ====
section
/-! SUPPORT. Lemmas of the Signal Map: bits of masks, what a valid configuration gives (20_memory.md R55, R56), and reading
a pin vector after a write. -/

namespace Sys2Proof

theorem Levels.at_eq_getElem? (v : Levels) (p : Nat) : v.at p = (v[p]?).getD false := by
  simp [Levels.at]

/-- Reading pin `q` after writing pin `p`. -/
theorem Levels.at_set (v : Levels) (p q : Nat) (b : Bool) :
    Levels.at (v.set p b) q = if p = q ∧ p < v.length then b else v.at q := by
  simp only [Levels.at_eq_getElem?, List.getElem?_set]
  by_cases h : p = q
  · subst h
    by_cases hl : p < v.length
    · simp [hl]
    · simp [hl]
  · simp [h]

theorem Levels.at_replicate_false (n p : Nat) : Levels.at (List.replicate n false) p = false := by
  simp only [Levels.at_eq_getElem?, List.getElem?_replicate]
  split <;> rfl

/-- Two pin vectors of one length that agree at every pin are equal. -/
theorem Levels.ext_at {a b : Levels} (hl : a.length = b.length) (h : ∀ p, p < a.length → a.at p = b.at p) : a = b := by
  apply List.ext_getElem hl
  intro p ha hb
  have := h p ha
  simpa [Levels.at_eq_getElem?, ha, hb] using this

theorem Levels.length_or (a b : Levels) : (a.or b).length = min a.length b.length := by
  simp [Levels.or]

theorem Levels.at_or {a b : Levels} (hl : a.length = b.length) (p : Nat) : (a.or b).at p = (a.at p || b.at p) := by
  simp only [Levels.at_eq_getElem?, Levels.or, List.getElem?_zipWith]
  by_cases h : p < a.length
  · have h' : p < b.length := hl ▸ h
    simp [h, h']
  · have h' : ¬ p < b.length := hl ▸ h
    simp [List.getElem?_eq_none (Nat.le_of_not_lt h), List.getElem?_eq_none (Nat.le_of_not_lt h')]

@[simp] theorem length_maskOf (cfg : Cfg) (f : Nat → Bool) : (maskOf cfg f).length = cfg.npins := by
  simp [maskOf]

theorem at_maskOf (cfg : Cfg) (f : Nat → Bool) (p : Nat) : (maskOf cfg f).at p = (decide (p < cfg.npins) && f p) := by
  simp only [Levels.at_eq_getElem?, maskOf, List.getElem?_map]
  by_cases h : p < cfg.npins
  · simp [h]
  · simp [h]

@[simp] theorem length_outMask (cfg : Cfg) : (outMask cfg).length = cfg.npins := length_maskOf _ _

@[simp] theorem length_jtagMinMask (cfg : Cfg) : (jtagMinMask cfg).length = cfg.npins := length_maskOf _ _

theorem mem_allSignals (g : Signal) : g ∈ allSignals := by cases g <;> decide

/-- R55 (a). -/
theorem pin_lt_npins {cfg : Cfg} (hv : valid cfg = true) {g : Signal} (hg : sigExists cfg g = true) :
    pin cfg g < cfg.npins := by
  simp only [valid, pinsInRange, Bool.and_eq_true, List.all_eq_true] at hv
  have := hv.1 g (mem_allSignals g)
  simpa [hg] using this

/-- R55 (b): one owner per physical pin. -/
theorem pin_injective {cfg : Cfg} (hv : valid cfg = true) {g h : Signal} (hg : sigExists cfg g = true)
    (hh : sigExists cfg h = true) (e : pin cfg g = pin cfg h) : g = h := by
  simp only [valid, oneOwnerPerPin, Bool.and_eq_true, List.all_eq_true] at hv
  have := hv.2 g (mem_allSignals g) h (mem_allSignals h)
  simpa [hg, hh, e] using this

/-- A pin of `OUT_MASK` is the pin of an existing output signal (R56). -/
theorem at_outMask_iff (cfg : Cfg) (p : Nat) :
    (outMask cfg).at p = true ↔ p < cfg.npins ∧ ∃ g, sigExists cfg g = true ∧ isOutput g = true ∧ pin cfg g = p := by
  simp only [outMask, at_maskOf, Bool.and_eq_true, decide_eq_true_eq, List.any_eq_true]
  constructor
  · rintro ⟨hp, g, -, ⟨h1, h2⟩, h3⟩
    exact ⟨hp, g, h1, h2, h3⟩
  · rintro ⟨hp, g, h1, h2, h3⟩
    exact ⟨hp, g, mem_allSignals g, ⟨h1, h2⟩, h3⟩

/-- A pin of `IN_MASK` is the pin of an existing input signal (R56). -/
theorem at_inMask_iff (cfg : Cfg) (p : Nat) :
    (inMask cfg).at p = true ↔ p < cfg.npins ∧ ∃ g, sigExists cfg g = true ∧ isOutput g = false ∧ pin cfg g = p := by
  simp only [inMask, at_maskOf, Bool.and_eq_true, decide_eq_true_eq, List.any_eq_true, Bool.not_eq_true']
  constructor
  · rintro ⟨hp, g, -, ⟨h1, h2⟩, h3⟩
    exact ⟨hp, g, h1, h2, h3⟩
  · rintro ⟨hp, g, h1, h2, h3⟩
    exact ⟨hp, g, mem_allSignals g, ⟨h1, h2⟩, h3⟩

theorem at_jtagMinMask_iff (cfg : Cfg) (p : Nat) :
    (jtagMinMask cfg).at p = true ↔
      p < cfg.npins ∧ ∃ g, (g = .tdi ∨ g = .tck ∨ g = .tms ∨ g = .jtagEn) ∧ pin cfg g = p := by
  simp [jtagMinMask, at_maskOf]

/-- The direction of an existing signal's pin in `OUT_MASK` is the signal's own. -/
theorem at_outMask_pin {cfg : Cfg} (hv : valid cfg = true) {g : Signal} (hg : sigExists cfg g = true) :
    (outMask cfg).at (pin cfg g) = isOutput g := by
  rw [Bool.eq_iff_iff, at_outMask_iff]
  constructor
  · rintro ⟨-, h, h1, h2, h3⟩
    rw [← pin_injective hv h1 hg h3]; exact h2
  · intro ho
    exact ⟨pin_lt_npins hv hg, g, hg, ho, rfl⟩

/-- `INIT` step 5 changes nothing after step 3 (40_initializer.md R101). -/
theorem outMask_or_jtagMinMask (cfg : Cfg) : (outMask cfg).or (jtagMinMask cfg) = outMask cfg := by
  apply Levels.ext_at
  · simp [Levels.length_or]
  · intro p _
    rw [Levels.at_or (by simp)]
    rw [Bool.eq_iff_iff, Bool.or_eq_true]
    constructor
    · rintro (h | h)
      · exact h
      · obtain ⟨hp, g, hg, he⟩ := (at_jtagMinMask_iff cfg p).1 h
        refine (at_outMask_iff cfg p).2 ⟨hp, g, ?_, ?_, he⟩ <;> rcases hg with rfl | rfl | rfl | rfl <;> rfl
    · exact Or.inl

/-- `IN_MASK` and `OUT_MASK` share no pin in a valid configuration. -/
theorem inMask_outMask_disjoint {cfg : Cfg} (hv : valid cfg = true) (p : Nat) :
    ¬ ((inMask cfg).at p = true ∧ (outMask cfg).at p = true) := by
  rintro ⟨hi, ho⟩
  obtain ⟨-, g, hg, hgi, hgp⟩ := (at_inMask_iff cfg p).1 hi
  obtain ⟨-, h, hh, hho, hhp⟩ := (at_outMask_iff cfg p).1 ho
  have := pin_injective hv hg hh (hgp.trans hhp.symm)
  subst this
  simp [hgi] at hho

end Sys2Proof
end

