-- ==== Sys2Proof/Laws/Ops.lean ====
section
/-! SUPPORT. What each shared operation can do: reads (20_memory.md R58 to R60), writes (R59, R61), the canonical form of
the pin vectors under every memory operation, and a clock edge. -/

namespace Sys2Proof.Machine

theorem memRead_driven {e : EdgeInput} {p : Nat} {s : State} (h : s.mem.oe.at p = true) :
    memRead e p s = (s.mem.out.at p, s) := by
  simp [memRead, h]

theorem memRead_undriven {e : EdgeInput} {p : Nat} {s : State} (h : s.mem.oe.at p = false) :
    memRead e p s = (sampleOf e p s.draws, { s with draws := s.draws + floats e p }) := by
  cases hx : e.ext.getD p none with
  | some v => simp only [memRead, h, Bool.false_eq_true, if_false, hx, sampleOf, floats, Option.getD_some,
      Option.isSome_some, if_true, Nat.add_zero]
  | none => simp only [memRead, h, Bool.false_eq_true, if_false, hx, sampleOf, floats, Option.getD_none,
      Option.isSome_none]

theorem sigRead_absent {e : EdgeInput} {g : Signal} {s : State} (h : sigExists s.cfg g = false) :
    sigRead e g s = (true, s) := by
  simp [sigRead, h]

theorem sigRead_present {e : EdgeInput} {g : Signal} {s : State} (h : sigExists s.cfg g = true) :
    sigRead e g s = memRead e (pin s.cfg g) s := by
  simp [sigRead, h]

theorem sigWrite_absent {g : Signal} {v : Bool} {s : State} (h : sigExists s.cfg g = false) : sigWrite g v s = s := by
  simp [sigWrite, h]

theorem sigWrite_present {g : Signal} {v : Bool} {s : State} (h : sigExists s.cfg g = true) :
    sigWrite g v s = memWrite (pin s.cfg g) v s := by
  simp [sigWrite, h]

@[simp] theorem sigWrite_oe (g : Signal) (v : Bool) (s : State) : (sigWrite g v s).mem.oe = s.mem.oe := by
  unfold sigWrite; split <;> rfl

/-- The latch of pin `q` after a `SigWrite`. -/
theorem sigWrite_out_at {g : Signal} {v : Bool} {s : State} (hv : valid s.cfg = true)
    (hw : s.mem.out.length = s.cfg.npins) (q : Nat) :
    (sigWrite g v s).mem.out.at q =
      if sigExists s.cfg g = true ∧ pin s.cfg g = q then v else s.mem.out.at q := by
  by_cases hg : sigExists s.cfg g = true
  · rw [sigWrite_present hg, memWrite_mem, Levels.at_set]
    by_cases hq : pin s.cfg g = q
    · subst hq
      simp [hg, hw, pin_lt_npins hv hg]
    · simp [hq]
  · simp [sigWrite_absent (by simpa using hg), hg]

theorem memWrite_wf {n p : Nat} {v : Bool} {s : State} (h : s.mem.wf n) : (memWrite p v s).mem.wf n := by
  simpa [Memory.wf] using h

theorem setDirections_wf {n : Nat} {v : Levels} {s : State} (h : s.mem.wf n) (hl : v.length = n) :
    (setDirections v s).mem.wf n := ⟨h.1, hl⟩

theorem sigWrite_wf {n : Nat} {g : Signal} {v : Bool} {s : State} (h : s.mem.wf n) : (sigWrite g v s).mem.wf n := by
  unfold sigWrite; split
  · exact memWrite_wf h
  · exact h

theorem resetEvent_wf (s : State) : (resetEvent s).mem.wf s.cfg.npins := by
  simp [Memory.wf]

theorem resetOf_wf (cfg : Cfg) (u : PowerOn) : (State.resetOf cfg u).mem.wf cfg.npins := by
  simp [Memory.wf, State.resetOf]

theorem reset_wf : State.reset.mem.wf State.reset.cfg.npins := resetOf_wf _ _

/-- Every micro-step keeps the canonical form of the pin vectors. -/
theorem perform_wf {m : Micro} {e : EdgeInput} {s : State} (h : s.mem.wf s.cfg.npins) :
    (perform m e s).mem.wf s.cfg.npins := by
  cases m with
  | assignOe => exact setDirections_wf h (by simp)
  | orOe => exact setDirections_wf h (by simp [Levels.length_or, h.2])
  | writeCmdBit g k => exact sigWrite_wf h
  | presentBit g => exact sigWrite_wf h
  | writeLevel g v => exact sigWrite_wf h
  | sampleInto g k => simpa [perform] using h
  | dispatch => simpa [perform] using h
  | sampleFeedback => simpa [perform] using h
  | _ => exact h

/-- No micro-step but `INIT`'s two writes of `OE` changes a direction. -/
theorem perform_oe {m : Micro} (h1 : m ≠ .assignOe) (h2 : m ≠ .orOe) (e : EdgeInput) (s : State) :
    (perform m e s).mem.oe = s.mem.oe := by
  cases m <;> simp_all [perform]

/-- At a clear edge of a valid configuration the action happens. -/
theorem atEdge_clear {s : State} {act : EdgeInput → State → Result} (hv : valid s.cfg = true)
    (hc : EdgeClear s.mem.oe (inputAt s 0)) : atEdge s act = act (inputAt s 0) (passEdge s) := by
  simp [atEdge, hv, hc.1, hc.2]

/-- A clock edge with `rst`, whatever else it would do. -/
theorem atEdge_rst {s : State} {act : EdgeInput → State → Result} (hv : valid s.cfg = true)
    (hc : contends s.mem.oe (inputAt s 0) = false) (hr : (inputAt s 0).rst = true) :
    atEdge s act = .next (resetEvent s) := by
  simp [atEdge, hv, hc, hr]

/-- Which of the three things happens at a clock edge does not depend on the action: a refusal, a reset, or the action. -/
theorem atEdge_cases (s : State) :
    (∃ r, ∀ act, atEdge s act = .refused r) ∨ (∀ act, atEdge s act = .next (resetEvent s)) ∨
      ∀ act, atEdge s act = act (inputAt s 0) (passEdge s) := by
  by_cases hv : valid s.cfg = true
  · by_cases hc : contends s.mem.oe (inputAt s 0) = true
    · exact .inl ⟨.contention, fun act => by simp [atEdge, hv, hc]⟩
    · by_cases hr : (inputAt s 0).rst = true
      · exact .inr (.inl fun act => by simp [atEdge, hv, hc, hr])
      · exact .inr (.inr fun act => by simp [atEdge, hv, hc, hr])
  · exact .inl ⟨.invalidConfiguration, fun act => by simp [atEdge, hv]⟩

/-- Everything a clock edge can answer with a next state: reset, or the action. -/
theorem atEdge_next {s t : State} {act : EdgeInput → State → Result} (h : atEdge s act = .next t) :
    valid s.cfg = true ∧ contends s.mem.oe (inputAt s 0) = false ∧
      (((inputAt s 0).rst = true ∧ t = resetEvent s) ∨
        ((inputAt s 0).rst = false ∧ act (inputAt s 0) (passEdge s) = .next t)) := by
  unfold atEdge at h
  split at h
  · rename_i hv
    split at h
    · cases h
    · rename_i hc
      refine ⟨hv, by simpa using hc, ?_⟩
      split at h
      · rename_i hr
        injection h with h
        exact .inl ⟨hr, h.symm⟩
      · rename_i hr
        exact .inr ⟨by simpa using hr, h⟩
  · cases h

/-- A micro-step does not look at the outside's script beyond its own edge, nor at the response port. -/
theorem perform_passEdge (m : Micro) (e : EdgeInput) (s : State) :
    perform m e (passEdge s) = passEdge (perform m e s) := by
  cases m <;> simp [perform, sigWrite, sigRead, memRead, memWrite, setDirections, passEdge] <;> (repeat' split) <;>
    simp_all

@[simp] theorem inputAt_passEdge (s : State) (k : Nat) : inputAt (passEdge s) k = inputAt s (k + 1) := by
  simp only [inputAt, passEdge_env, List.getD_eq_getElem?_getD, List.getElem?_tail]

end Sys2Proof.Machine
end

