-- ==== Sys2Proof/Laws/Sequencer.lean ====
section
/-! SUPPORT. What the sequencer can do: one step (10_state.md R36), a stretch of a micro-program under clear edges, a command
one step at a time, and the micro-program lengths (70_reset_and_hazards.md R187). -/

namespace Sys2Proof.Machine

/-- The micro-program lengths of R187. -/
theorem length_programOf (i : Instr) (cfg : Cfg) : (programOf i cfg).length = microSteps cfg i := by
  cases i <;> cases h1 : cfg.haveAs <;> cases h2 : cfg.haveLed <;>
    simp [programOf, microSteps, initProgram, setoutProgram, setrdProgram, shoutProgram, shioProgram, shoutBit, shioBit, h1, h2]

theorem microSteps_le_longest (cfg : Cfg) (i : Instr) : microSteps cfg i ≤ longestProgram := by
  cases i <;> cases h1 : cfg.haveAs <;> cases h2 : cfg.haveLed <;> simp [microSteps, longestProgram, h1, h2]

theorem microSteps_pos (cfg : Cfg) (i : Instr) : 0 < microSteps cfg i := by
  cases i <;> simp [microSteps]

theorem microProgram_of_decode {w : CmdWord} {i : Instr} (h : decode w = .command i) (cfg : Cfg) :
    microProgram w cfg = programOf i cfg := by
  simp [microProgram, h]

/-- No micro-program is longer than 41 micro-steps (R187). -/
theorem length_microProgram_le (w : CmdWord) (cfg : Cfg) : (microProgram w cfg).length ≤ 41 := by
  unfold microProgram
  split
  · rw [length_programOf]; exact microSteps_le_longest _ _
  · simp

theorem upc_add_one_toNat {u : BitVec 6} {n : Nat} (h : u.toNat < n) (hn : n ≤ 41) : (u + 1).toNat = u.toNat + 1 := by
  have h1 : (1 : BitVec 6).toNat = 1 := rfl
  rw [BitVec.toNat_add, h1]
  omega

/-- One step of the sequencer at a clear edge. -/
theorem seqStep_clear {s : State} {m : Micro} (hv : valid s.cfg = true) (hc : EdgeClear s.mem.oe (inputAt s 0))
    (hm : (microProgram s.cmd s.cfg)[s.upc.toNat]? = some m) :
    seqStep s =
      .next (advance (microProgram s.cmd s.cfg).length (perform m (inputAt s 0) (passEdge s))) := by
  rw [seqStep, atEdge_clear hv hc]
  simp [microStep, hm]

/-- Everything one step of the sequencer can answer with a next state: reset, or one micro-step and the advance past it. -/
theorem seqStep_next {s t : State} (h : seqStep s = .next t) :
    valid s.cfg = true ∧ contends s.mem.oe (inputAt s 0) = false ∧
      (((inputAt s 0).rst = true ∧ t = resetEvent s) ∨
        ((inputAt s 0).rst = false ∧ ∃ m, (microProgram s.cmd s.cfg)[s.upc.toNat]? = some m ∧
          t = advance (microProgram s.cmd s.cfg).length (perform m (inputAt s 0) (passEdge s)))) := by
  obtain ⟨hv, hc, hr | ⟨hr, ha⟩⟩ := atEdge_next h
  · exact ⟨hv, hc, .inl hr⟩
  · refine ⟨hv, hc, .inr ⟨hr, ?_⟩⟩
    unfold microStep at ha
    split at ha
    · rename_i m hm
      injection ha with ha
      exact ⟨m, by simpa using hm, by simpa using ha.symm⟩
    · cases ha

theorem finish_idle {s : State} (h : s.busy = false) (n : Nat) : finish n s = .next s := by
  cases n <;> simp [finish, h]

theorem finish_succ_next {s t : State} (hb : s.busy = true) (h : seqStep s = .next t) (n : Nat) :
    finish (n + 1) s = finish n t := by
  simp [finish, hb, h]

/-- `n + 1` steps are `n` steps and then one more, where `BUSY` is still 1. -/
theorem finish_succ_last (n : Nat) (s : State) :
    finish (n + 1) s =
      match finish n s with
      | .next u => if u.busy then seqStep u else .next u
      | .fault r => .fault r
      | .refused r => .refused r := by
  induction n generalizing s with
  | zero =>
    simp only [finish]
    split
    · split <;> simp_all
    · rfl
  | succ n ih =>
    by_cases hb : s.busy
    · cases hs : seqStep s with
      | next t => rw [finish_succ_next hb hs, ih t, finish_succ_next hb hs]
      | fault r => simp [finish, hb, hs]
      | refused r => simp [finish, hb, hs]
    · simp only [Bool.not_eq_true] at hb
      simp [finish_idle hb, hb]

/-- One micro-step more of a command: nothing where it has ended, else one step of the sequencer. -/
theorem runUpTo_succ (n : Nat) (i : Instr) (s : State) :
    runUpTo (n + 1) i s =
      match runUpTo n i s with
      | .next u => if u.busy then seqStep u else .next u
      | .fault r => .fault r
      | .refused r => .refused r := by
  unfold runUpTo
  split
  · rfl
  · obtain ⟨r, h⟩ | h | h := atEdge_cases (takePresented i s)
    · simp [h]
    · simp [h]
    · rw [h, h]
      by_cases ha : admitted i (passEdge (takePresented i s)) = true
      · simp only [ha, if_true]
        exact finish_succ_last _ _
      · simp [ha]

/-- The micro-steps of a list, performed at successive clock edges; `upc` moves past each. -/
def runMicros : List Micro → State → State
  | [], s => s
  | m :: ms, s => runMicros ms (nextUpc (perform m (inputAt s 0) (passEdge s)))

theorem runMicros_append (a b : List Micro) (s : State) : runMicros (a ++ b) s = runMicros b (runMicros a s) := by
  induction a generalizing s with
  | nil => rfl
  | cons m ms ih => simp [runMicros, ih]

@[simp] theorem runMicros_cfg (ms : List Micro) (s : State) : (runMicros ms s).cfg = s.cfg := by
  induction ms generalizing s with
  | nil => rfl
  | cons m ms ih => simp [runMicros, ih]

@[simp] theorem runMicros_cmd (ms : List Micro) (s : State) : (runMicros ms s).cmd = s.cmd := by
  induction ms generalizing s with
  | nil => rfl
  | cons m ms ih => simp [runMicros, ih]

@[simp] theorem runMicros_busy (ms : List Micro) (s : State) : (runMicros ms s).busy = s.busy := by
  induction ms generalizing s with
  | nil => rfl
  | cons m ms ih => simp [runMicros, ih]

@[simp] theorem runMicros_cmds (ms : List Micro) (s : State) : (runMicros ms s).cmds = s.cmds := by
  induction ms generalizing s with
  | nil => rfl
  | cons m ms ih => simp [runMicros, ih]

@[simp] theorem runMicros_env (ms : List Micro) (s : State) : (runMicros ms s).env = s.env.drop ms.length := by
  induction ms generalizing s with
  | nil => rfl
  | cons m ms ih => simp [runMicros, ih]

theorem inputAt_runMicros (ms : List Micro) (s : State) (k : Nat) :
    inputAt (runMicros ms s) k = inputAt s (ms.length + k) := by
  simp [inputAt, List.getD_eq_getElem?_getD]

theorem runMicros_wf {ms : List Micro} {s : State} (h : s.mem.wf s.cfg.npins) :
    (runMicros ms s).mem.wf s.cfg.npins := by
  induction ms generalizing s with
  | nil => exact h
  | cons m ms ih =>
    have := ih (s := (nextUpc (perform m (inputAt s 0) (passEdge s))))
    simp only [nextUpc_cfg, nextUpc_mem, perform_cfg, passEdge_cfg] at this
    exact this (perform_wf (m := m) (e := inputAt s 0) (s := passEdge s) h)

/-- A list of micro-steps writes no direction. -/
def KeepsDirections (ms : List Micro) : Prop := ∀ m ∈ ms, m ≠ .assignOe ∧ m ≠ .orOe

theorem keepsDirections_programOf {i : Instr} (hi : i ≠ .init) (cfg : Cfg) : KeepsDirections (programOf i cfg) := by
  cases i with
  | init => exact absurd rfl hi
  | setout w => cases h1 : cfg.haveAs <;> cases h2 : cfg.haveLed <;>
      simp [KeepsDirections, programOf, setoutProgram, h1, h2]
  | setrd w => cases h1 : cfg.haveAs <;> cases h2 : cfg.haveLed <;>
      simp [KeepsDirections, programOf, setrdProgram, setoutProgram, h1, h2]
  | shout b => simp [KeepsDirections, programOf, shoutProgram, shoutBit]
  | shio b => cases h1 : cfg.haveAs <;>
      simp [KeepsDirections, programOf, shioProgram, shioBit, h1]

theorem runMicros_oe {ms : List Micro} (h : KeepsDirections ms) (s : State) :
    (runMicros ms s).mem.oe = s.mem.oe := by
  induction ms generalizing s with
  | nil => rfl
  | cons m ms ih =>
    have hm := h m (by simp)
    rw [runMicros, ih fun x hx => h x (by simp [hx])]
    exact perform_oe hm.1 hm.2 _ (passEdge s)

/-- A stretch of a micro-program under clear edges, in the middle of a command. -/
theorem finish_micros {ms : List Micro} {pre post : List Micro} {s : State} (hb : s.busy = true)
    (hv : valid s.cfg = true) (hp : microProgram s.cmd s.cfg = pre ++ (ms ++ post)) (hu : s.upc.toNat = pre.length)
    (hpost : post ≠ []) (hk : KeepsDirections ms) (hc : ClearFor ms.length s) (n : Nat) :
    finish (ms.length + n) s = finish n (runMicros ms s) ∧ (runMicros ms s).upc.toNat = pre.length + ms.length := by
  induction ms generalizing s pre with
  | nil => exact ⟨by simp [runMicros], by simpa [runMicros] using hu⟩
  | cons m ms ih =>
    have hlen := length_microProgram_le s.cmd s.cfg
    have hm : (microProgram s.cmd s.cfg)[s.upc.toNat]? = some m := by simp [hp, hu]
    have h0 : EdgeClear s.mem.oe (inputAt s 0) := hc 0 (by simp)
    have hpl : 0 < post.length := List.length_pos_of_ne_nil hpost
    have hL : (microProgram s.cmd s.cfg).length = pre.length + (ms.length + 1 + post.length) := by simp [hp]; omega
    have hup : (s.upc + 1).toNat = pre.length + 1 := by
      rw [upc_add_one_toNat (n := (microProgram s.cmd s.cfg).length) (by omega) hlen, hu]
    have hadv : advance (microProgram s.cmd s.cfg).length (perform m (inputAt s 0) (passEdge s)) =
        (nextUpc (perform m (inputAt s 0) (passEdge s))) := by
      unfold advance
      rw [if_neg]
      simp only [nextUpc_upc, perform_upc, passEdge_upc]; omega
    have hs := seqStep_clear hv h0 hm
    rw [hadv] at hs
    have hkm := hk m (by simp)
    have key := ih (s := (nextUpc (perform m (inputAt s 0) (passEdge s)))) (pre := pre ++ [m])
      (by simpa using hb) (by simpa using hv) (by simpa using hp) (by simpa using hup)
      (fun x hx => hk x (by simp [hx]))
      (fun k hk' => by
        have := hc (k + 1) (by simp only [List.length_cons]; omega)
        simpa [inputAt, perform_oe hkm.1 hkm.2, List.getD_eq_getElem?_getD] using this)
    refine ⟨?_, ?_⟩
    · rw [List.length_cons, Nat.add_right_comm, finish_succ_next hb hs]
      exact key.1
    · have := key.2
      simp only [List.length_append, List.length_cons, List.length_nil] at this
      rw [runMicros, this, List.length_cons]
      omega

/-- The rest of a micro-program under clear edges, to completion. -/
theorem finish_rest {ms : List Micro} {pre : List Micro} {s : State} (hb : s.busy = true)
    (hv : valid s.cfg = true) (hp : microProgram s.cmd s.cfg = pre ++ ms) (hu : s.upc.toNat = pre.length)
    (hne : ms ≠ []) (hk : KeepsDirections ms) (hc : ClearFor ms.length s) (n : Nat) :
    finish (ms.length + n) s = .next (complete (runMicros ms s)) := by
  obtain ⟨front, m, rfl⟩ : ∃ front m, ms = front ++ [m] :=
    ⟨ms.dropLast, ms.getLast hne, (List.dropLast_append_getLast hne).symm⟩
  have hkf : KeepsDirections front := fun x hx => hk x (by simp [hx])
  have h1 := finish_micros (ms := front) (pre := pre) (post := [m]) hb hv (by simpa using hp) hu (by simp) hkf
    (fun k hk' => hc k (by simp; omega)) (1 + n)
  have hlen := length_microProgram_le s.cmd s.cfg
  have hL : (microProgram s.cmd s.cfg).length = pre.length + (front.length + 1) := by simp [hp]
  have hm : (microProgram (runMicros front s).cmd (runMicros front s).cfg)[(runMicros front s).upc.toNat]? = some m := by
    rw [h1.2]; simp [hp]
  have hc' : EdgeClear (runMicros front s).mem.oe (inputAt (runMicros front s) 0) := by
    rw [runMicros_oe hkf, inputAt_runMicros]
    exact hc _ (by simp)
  have hs := seqStep_clear (s := runMicros front s) (by simpa using hv) hc' hm
  have hadv : advance (microProgram (runMicros front s).cmd (runMicros front s).cfg).length
      (perform m (inputAt (runMicros front s) 0) (passEdge (runMicros front s))) =
      complete (runMicros (front ++ [m]) s) := by
    unfold advance
    rw [if_pos]
    · simp [runMicros_append, runMicros]
    · simp only [nextUpc_upc, perform_upc, passEdge_upc, runMicros_cmd, runMicros_cfg]
      rw [upc_add_one_toNat (n := (microProgram s.cmd s.cfg).length) (by omega) hlen, h1.2, hL]
      omega
  rw [hadv] at hs
  have : (front ++ [m]).length + n = front.length + (1 + n) := by simp; omega
  rw [this, h1.1, Nat.add_comm 1 n, finish_succ_next (by simpa using hb) hs]
  exact finish_idle rfl n

theorem decode_presentedWord_of_encode {i : Instr} (h : decode (encode i) = .command i) (s : State) :
    decode (presentedWord i s) = .command i := by
  unfold presentedWord
  split
  · split
    · assumption
    · exact h
  · exact h

@[simp] theorem inputAt_takePresented (i : Instr) (s : State) (k : Nat) :
    inputAt (takePresented i s) k = inputAt s k := by
  simp [inputAt]

/-- The state right after acceptance of command `i` (10_state.md R37). -/
def accepted (i : Instr) (s : State) : State :=
  loadCommand (presentedWord i s) (passEdge (takePresented i s))

/-- Acceptance at a clear edge (R37, R171), then the micro-steps. -/
theorem runUpTo_clear {i : Instr} {s : State} (hv : valid s.cfg = true) (hb : s.busy = false)
    (hc : EdgeClear s.mem.oe (inputAt s 0)) (ha : admitted i s = true) (n : Nat) :
    runUpTo n i s = finish n (accepted i s) := by
  have ha' : admitted i (passEdge (takePresented i s)) = true := by
    cases i <;> simp_all [admitted, initialised]
  rw [runUpTo, if_neg (by simp [hb]), atEdge_clear (by simp [hv]) (by simpa using hc)]
  simp [ha', accepted]

end Sys2Proof.Machine
end

