-- ==== Sys2Proof/Laws/PerInstr.lean ====
section
/-! SUPPORT. The family RoundTrip, one lemma for each command: it is well formed, and its canonical word decodes to it
(30_encoding.md R89). -/

namespace Sys2Proof.Laws.RoundTrip

/-- The command is well formed and its word decodes to it. -/
def Statement (i : Instr) : Prop := i.wellFormed = true ∧ decode (encode i) = .command i

theorem init : Statement .init := ⟨rfl, rfl⟩

theorem setout (w : StateWord) : Statement (.setout w) := by
  refine ⟨?_, ?_⟩
  · have := w.isLt
    simp only [Instr.wellFormed, AsmLine.ofInstr, AsmLine.wellFormed, decide_eq_true_eq]
    omega
  · revert w; unfold StateWord; decide

theorem setrd (w : StateWord) : Statement (.setrd w) := by
  refine ⟨?_, ?_⟩
  · have := w.isLt
    simp only [Instr.wellFormed, AsmLine.ofInstr, AsmLine.wellFormed, decide_eq_true_eq]
    omega
  · revert w; unfold StateWord; decide

theorem shout (b : Byte) : Statement (.shout b) := by
  refine ⟨?_, ?_⟩
  · have := b.isLt
    simp only [Instr.wellFormed, AsmLine.ofInstr, AsmLine.wellFormed, decide_eq_true_eq]
    omega
  · revert b; unfold Byte; decide

theorem shio (b : Byte) : Statement (.shio b) := by
  refine ⟨?_, ?_⟩
  · have := b.isLt
    simp only [Instr.wellFormed, AsmLine.ofInstr, AsmLine.wellFormed, decide_eq_true_eq]
    omega
  · revert b; unfold Byte; decide

end Sys2Proof.Laws.RoundTrip
end

