-- ==== Sys2Proof/Laws/Commands.lean ====
section
/-! SUPPORT. A command other than `INIT` under clear edges: the state after its first `n` micro-steps, and the state after the
whole of it. -/

namespace Sys2Proof.Machine

theorem decode_encode (i : Instr) : decode (encode i) = .command i := by
  cases i with
  | init => exact Laws.RoundTrip.init.2
  | setout w => exact (Laws.RoundTrip.setout w).2
  | setrd w => exact (Laws.RoundTrip.setrd w).2
  | shout b => exact (Laws.RoundTrip.shout b).2
  | shio b => exact (Laws.RoundTrip.shio b).2

/-- The word accepted for a command is a word of that command. -/
@[simp] theorem decode_presentedWord (i : Instr) (s : State) : decode (presentedWord i s) = .command i :=
  decode_presentedWord_of_encode (decode_encode i) s

@[simp] theorem microProgram_presentedWord (i : Instr) (s : State) (cfg : Cfg) :
    microProgram (presentedWord i s) cfg = programOf i cfg :=
  microProgram_of_decode (decode_presentedWord i s) cfg

theorem clearRun_of_ne_init {i : Instr} (hi : i ≠ .init) {s : State} (hc : ClearRun i s) :
    ClearFor (1 + microSteps s.cfg i) s := by
  cases i with
  | init => exact absurd rfl hi
  | _ => exact hc

theorem admitted_of_initialised {i : Instr} {s : State} (h : initialised s = true) : admitted i s = true := by
  cases i <;> simp [admitted, h]

theorem inputAt_accepted (i : Instr) (s : State) (k : Nat) : inputAt (accepted i s) k = inputAt s (k + 1) := by
  simp [accepted, inputAt, List.getD_eq_getElem?_getD]

theorem clearFor_accepted {i : Instr} {s : State} {n : Nat} (hc : ClearFor (1 + n) s) : ClearFor n (accepted i s) := by
  intro k hk
  rw [inputAt_accepted]
  simpa [accepted] using hc (k + 1) (by omega)

/-- The first `n` micro-steps of a command other than `INIT`. -/
theorem runUpTo_partial {i : Instr} (hi : i ≠ .init) {s : State} (hr : Ready s) (hc : ClearRun i s) {n : Nat}
    (hn : n < microSteps s.cfg i) :
    runUpTo n i s = .next (runMicros ((programOf i s.cfg).take n) (accepted i s)) ∧
      (runMicros ((programOf i s.cfg).take n) (accepted i s)).upc.toNat = n := by
  have hc' := clearRun_of_ne_init hi hc
  obtain ⟨⟨hv, hw, hb⟩, hin⟩ := hr
  rw [runUpTo_clear hv hb (hc' 0 (by omega)) (admitted_of_initialised hin)]
  have hlen := length_programOf i s.cfg
  have key := finish_micros (ms := (programOf i s.cfg).take n) (pre := []) (post := (programOf i s.cfg).drop n)
    (s := accepted i s) rfl (by simpa [accepted] using hv) (by simp [accepted]) (by simp [accepted])
    (by intro h; have := congrArg List.length h; simp at this; omega)
    (fun m hm => keepsDirections_programOf hi s.cfg m (List.mem_of_mem_take hm))
    (fun k hk => clearFor_accepted (n := microSteps s.cfg i) hc' k (by simp at hk; omega)) 0
  have hl : ((programOf i s.cfg).take n).length = n := by simp [hlen]; omega
  rw [hl] at key
  exact ⟨by simpa [finish] using key.1, by simpa using key.2⟩

/-- A whole command other than `INIT`. -/
theorem runUpTo_whole {i : Instr} (hi : i ≠ .init) {s : State} (hr : Ready s) (hc : ClearRun i s) (n : Nat) :
    runUpTo (microSteps s.cfg i + n) i s = .next (complete (runMicros (programOf i s.cfg) (accepted i s))) := by
  have hc' := clearRun_of_ne_init hi hc
  obtain ⟨⟨hv, hw, hb⟩, hin⟩ := hr
  rw [runUpTo_clear hv hb (hc' 0 (by omega)) (admitted_of_initialised hin)]
  have hlen := length_programOf i s.cfg
  have key := finish_rest (ms := programOf i s.cfg) (pre := []) (s := accepted i s) rfl
    (by simpa [accepted] using hv) (by simp [accepted]) (by simp [accepted])
    (by intro h; have h1 := congrArg List.length h; have h2 := microSteps_pos s.cfg i; rw [hlen] at h1; exact absurd h1 (by simp; omega))
    (keepsDirections_programOf hi s.cfg) (hlen ▸ clearFor_accepted hc') n
  rw [hlen] at key
  exact key

theorem exec_eq_runCommand (i : Instr) (s : State) : exec i s = runUpTo longestProgram i s := by
  cases i <;> rfl

/-- The meaning of a command other than `INIT` under clear edges. -/
theorem exec_clear {i : Instr} (hi : i ≠ .init) {s : State} (hr : Ready s) (hc : ClearRun i s) :
    exec i s = .next (complete (runMicros (programOf i s.cfg) (accepted i s))) := by
  have hle := microSteps_le_longest s.cfg i
  have := runUpTo_whole hi hr hc (longestProgram - microSteps s.cfg i)
  rw [Nat.add_sub_cancel' hle] at this
  rw [exec_eq_runCommand, this]

end Sys2Proof.Machine
end

