-- ==== Sys2Proof/Tests/Slice0.lean ====
section
/-! SUPPORT. The tests: expected values are those of spec/95_test_vectors.md, or written out by hand from the encodings of
spec/30_encoding.md; and, for every obligation with hypotheses, a concrete state and operands that meet them together. -/

namespace Sys2Proof.Tests

open Sys2Proof Sys2Proof.Machine

set_option Elab.async false

/-! ### Helpers -/

/-- An Initialised, idle state with the flags, the latches (as a number) and the outside's script given. -/
def ready (haveAs havePs haveLed : Bool) (out : Nat) (env : List EdgeInput) : State :=
  { State.resetOf (Cfg.reference haveAs havePs haveLed []) PowerOn.zero with
    mem := { out := Levels.ofNat 9 out, oe := outMask (Cfg.reference haveAs havePs haveLed []) }
    clkcfg := 0b11#2, busmode := 0b111#3, vregctl := 1#1, env := env }

/-- Right after reset, with `OUT_RESET` given as a number. -/
def fresh (haveAs havePs haveLed : Bool) (outReset : Nat) : State :=
  State.resetOf (Cfg.reference haveAs havePs haveLed (Levels.ofNat 9 outReset)) PowerOn.zero

/-- One clock edge at which the environment applies levels to TDO (pin 6) and ASDO (pin 7). -/
def feedback (tdo asdo : Option Bool) : EdgeInput :=
  { rst := false, ext := [none, none, none, none, none, none, tdo, asdo] }

/-- A clock edge with `rst`. -/
def resetEdge : EdgeInput := { rst := true, ext := [] }

/-- A clock edge at which the environment drives TDI (pin 4). -/
def drivesTdi (v : Bool) : EdgeInput := { rst := false, ext := [none, none, none, none, some v] }

/-- The script in which sample `k` of a `SHIO` finds bit `k` of `p` on TDO, `first` edges standing before the samples, and
ASDO has the level `asdo`. -/
def patternOnTdo (first : Nat) (p : Byte) (asdo : Option Bool) : List EdgeInput :=
  List.replicate first EdgeInput.quiet ++ (List.range 8).flatMap fun k => List.replicate 5 (feedback (some (p.getLsbD k)) asdo)

/-- The same on ASDO, TDO having the level `tdo`. -/
def patternOnAsdo (first : Nat) (p : Byte) (tdo : Option Bool) : List EdgeInput :=
  List.replicate first EdgeInput.quiet ++ (List.range 8).flatMap fun k => List.replicate 5 (feedback tdo (some (p.getLsbD k)))

/-- The script of TDO wired to TDI during `SHIO b` without AS-mode, `d` the level of TDI at acceptance: sample `k` finds the
bit presented in iteration `k - 1`. -/
def loopback (d : Bool) (b : Byte) : List EdgeInput :=
  EdgeInput.quiet :: (List.range 8).flatMap fun k =>
    List.replicate 5 (feedback (some (if k = 0 then d else b.getLsbD (k - 1))) none)

/-- The outcome's next state satisfies `f`. -/
def next (r : Result) (f : State → Bool) : Bool :=
  match r with
  | .next t => f t
  | .fault _ => false
  | .refused _ => false

/-- The outcome is the refusal `q`. -/
def refusedWith (q : Refusal) (r : Result) : Bool :=
  match r with
  | .next _ => false
  | .fault _ => false
  | .refused q' => q' == q

/-- The latches of `t` are those of the number `v`. -/
def outIs (v : Nat) (t : State) : Bool := t.mem.out == Levels.ofNat 9 v

/-- The events of a shift of the bits of `b`, least significant first. -/
def shiftEvents (sample : Nat → List PinEvent) (b : Byte) : List PinEvent :=
  (List.range 8).flatMap fun k => sample k ++ [.write .tdi (b.getLsbD k), .write .tck true, .write .tck false]

/-! ### Encoding (2.7 of the vectors) -/

theorem test_decode_init : decode 0b000_00000000#11 = .command .init ∧ decode 0b000_10101011#11 = .command .init := by decide
theorem test_decode_setout : decode 0b001_11_101100#11 = .command (.setout 0b101100#6) := by decide
theorem test_decode_setrd : decode 0b010_00_111111#11 = .command (.setrd 0b111111#6) := by decide
theorem test_decode_shout : decode 0b011_10100101#11 = .command (.shout 0b10100101#8) := by decide
theorem test_decode_shio : decode 0b100_11111111#11 = .command (.shio 0b11111111#8) := by decide
theorem test_decode_reserved :
    decode 0b101_00000000#11 = .reservedOp 0b101#3 ∧ decode 0b110_10100101#11 = .reservedOp 0b110#3 ∧
      decode 0b111_11111111#11 = .reservedOp 0b111#3 := by decide
theorem test_encode_canonical :
    encode .init = 0x000#11 ∧ encode (.setout 0x2C#6) = 0x12C#11 ∧ encode (.setrd 0x3F#6) = 0x23F#11 ∧
      encode (.shout 0xA5#8) = 0x3A5#11 ∧ encode (.shio 0xA5#8) = 0x4A5#11 := by decide
theorem test_table_word_fits_the_port :
    decodeTableWord 16 0x01EC = some (.setout 0x2C#6) ∧ decodeTableWord 16 0x0500 = none ∧
      decodeTableWord 16 0x0900 = none := by decide

/-! ### Well-formedness: each check refuses an ill-formed term -/

theorem smoke_setout_out_of_range : (AsmLine.setout 0x40).wellFormed = false ∧ assemble (.setout 0x40) = none := by decide
theorem smoke_setrd_out_of_range : (AsmLine.setrd 0x40).wellFormed = false ∧ assemble (.setrd 0x40) = none := by decide
theorem smoke_shout_out_of_range : (AsmLine.shout 0x100).wellFormed = false ∧ assemble (.shout 0x100) = none := by decide
theorem smoke_shio_out_of_range : (AsmLine.shio 0x100).wellFormed = false ∧ assemble (.shio 0x100) = none := by decide
theorem smoke_in_range :
    assemble .init = some 0x000#11 ∧ assemble (.setout 0x3F) = some 0x13F#11 ∧ assemble (.setrd 0x3F) = some 0x23F#11 ∧
      assemble (.shout 0xFF) = some 0x3FF#11 ∧ assemble (.shio 0xFF) = some 0x4FF#11 := by decide

/-- The eight flag triples. -/
def flagTriples : List (Bool × Bool × Bool) :=
  [(false, false, false), (false, false, true), (false, true, false), (false, true, true),
    (true, false, false), (true, false, true), (true, true, false), (true, true, true)]

/-- A configuration over 9 pins with another pin map. -/
def mapped (f : Bool × Bool × Bool) (m : PinMap) : Cfg :=
  { Cfg.reference f.1 f.2.1 f.2.2 [] with pinmap := m }

theorem test_default_map_is_valid : flagTriples.all (fun f => valid (mapped f PinMap.reference)) = true := by decide
theorem smoke_led_shares_jtag_enable :
    flagTriples.all (fun f => valid (mapped f { PinMap.reference with oeLed := 8 }) == !f.2.2) = true := by decide
theorem smoke_tdo_shares_tdi : flagTriples.all (fun f => !valid (mapped f { PinMap.reference with tdo := 4 })) = true := by decide
theorem smoke_ncs_shares_asdo :
    flagTriples.all (fun f => valid (mapped f { PinMap.reference with ncs := 7 }) == !f.1) = true := by decide
theorem smoke_pin_outside_the_space :
    flagTriples.all (fun f => !valid (mapped f { PinMap.reference with tck := 9 })) = true := by decide

/-! ### The masks (2.1 of the vectors) -/

theorem test_masks :
    flagTriples.map (fun f => (outMask (mapped f PinMap.reference), inMask (mapped f PinMap.reference))) =
      [(Levels.ofNat 9 0x113, Levels.ofNat 9 0x040), (Levels.ofNat 9 0x133, Levels.ofNat 9 0x040),
        (Levels.ofNat 9 0x113, Levels.ofNat 9 0x0C0), (Levels.ofNat 9 0x133, Levels.ofNat 9 0x0C0),
        (Levels.ofNat 9 0x11F, Levels.ofNat 9 0x0C0), (Levels.ofNat 9 0x13F, Levels.ofNat 9 0x0C0),
        (Levels.ofNat 9 0x11F, Levels.ofNat 9 0x0C0), (Levels.ofNat 9 0x13F, Levels.ofNat 9 0x0C0)] := by decide +kernel
theorem test_jtag_min_mask :
    flagTriples.all (fun f => jtagMinMask (mapped f PinMap.reference) == Levels.ofNat 9 0x113) = true := by decide

/-! ### INIT (2.2 of the vectors) -/

theorem test_init_from_reset :
    next (exec .init (fresh true true true 0x100)) (fun t =>
      t.mem.oe == Levels.ofNat 9 0x13F && outIs 0x100 t && t.clkcfg == 0b11#2 && t.busmode == 0b111#3 && t.vregctl == 1#1 &&
        !t.busy && t.rsp.isNone && initialised t) = true := by decide +kernel
theorem test_init_intermediate :
    next (runUpTo 3 .init (fresh true true true 0x100)) (fun t =>
      t.busy && t.upc == 3 && t.mem.oe == Levels.ofNat 9 0x13F && t.vregctl == 0#1) = true := by decide +kernel

/-! ### SETOUT (2.3 of the vectors) -/

theorem test_setout_absent_signals :
    next (exec (.setout 0x2C#6) (ready false true false 0x000 [])) (outIs 0x000) = true ∧
      next (exec (.setout 0x3F#6) (ready false false true 0x000 [])) (outIs 0x033) = true := by decide +kernel
theorem test_setout_trace :
    commandTrace (.setout 0x13#6) (ready true true true 0x100 []) =
        [.write .tck true, .write .tms true, .write .nce false, .write .ncs false, .write .tdi true, .write .oeLed false] ∧
      next (exec (.setout 0x13#6) (ready true true true 0x100 [])) (outIs 0x113) = true := by decide +kernel

/-! ### SETRD (2.4 of the vectors) -/

theorem test_setrd_s7 :
    next (exec (.setrd 0x00#6) (ready true false false 0x000 (List.replicate 8 (feedback (some true) (some false)))))
      (fun t => t.rsp == some 0x01#8) = true ∧
    commandTrace (.setrd 0x00#6) (ready true false false 0x000 (List.replicate 8 (feedback (some true) (some false)))) =
      [.write .tck false, .write .tms false, .write .nce false, .write .ncs false, .write .tdi false,
        .read .tdo true, .read .asdo false] := by decide +kernel
theorem test_setrd_absent_asdo :
    next (exec (.setrd 0x00#6) (ready false false false 0x000 (List.replicate 6 (feedback (some false) none))))
      (fun t => t.rsp == some 0x02#8) = true := by decide +kernel

/-! ### SHOUT (2.5 of the vectors) -/

theorem test_shout_a5 :
    commandTrace (.shout 0xA5#8) (ready true true true 0x12C []) = shiftEvents (fun _ => []) 0b10100101#8 ∧
      next (exec (.shout 0xA5#8) (ready true true true 0x12C [])) (fun t => outIs 0x13C t && t.rsp.isNone) = true := by
  decide +kernel
theorem test_shout_with_the_clock_high :
    risingEdges true (commandTrace (.shout 0x01#8) (ready true true true 0x101 [])) = 7 := by decide +kernel

/-! ### SHIO and the Mode Dispatcher (2.6 of the vectors) -/

/-- With `SR` after the shift of iteration 0. -/
theorem test_shio_loopback :
    next (exec (.shio 0xA5#8) (ready false false false 0x010 (loopback true 0xA5#8))) (fun t => t.rsp == some 0x4B#8) = true ∧
      next (runUpTo 4 (.shio 0xA5#8) (ready false false false 0x010 (loopback true 0xA5#8))) (fun t => t.sr == 0xD2#8) = true ∧
      next (exec (.shio 0xA5#8) (ready false false false 0x000 (loopback false 0xA5#8)))
        (fun t => t.rsp == some 0x4A#8 && outIs 0x010 t) = true := by decide +kernel
theorem test_shio_dispatch :
    next (exec (.shio 0x00#8) (ready true false false 0x000 (patternOnAsdo 2 0x3C#8 (some true))))
        (fun t => t.rsp == some 0x3C#8) = true ∧
      next (exec (.shio 0xFF#8) (ready true false false 0x008 (patternOnTdo 2 0x81#8 (some false))))
        (fun t => t.rsp == some 0x81#8) = true ∧
      next (exec (.shio 0x00#8) (ready false true false 0x000 (patternOnTdo 1 0x81#8 (some false))))
        (fun t => t.rsp == some 0x81#8) = true := by decide +kernel

/-! ### Refusals, reset and the first step (2.8 of the vectors; 70_reset_and_hazards.md P5) -/

theorem test_setout_before_init :
    refusedWith .notInitialised (exec (.setout 0x2C#6) (fresh true true true 0x100)) = true := by decide +kernel
theorem test_contention :
    refusedWith .contention (step { ready true true true 0x100 [drivesTdi true] with cmds := [0x12C#11] }) = true := by
  decide +kernel
theorem test_reserved_word :
    refusedWith .reservedCommand (step { ready true true true 0x100 [] with cmds := [0x500#11] }) = true := by decide +kernel
theorem test_invalid_configuration :
    refusedWith .invalidConfiguration
      (step { fresh true true true 0x100 with cfg := mapped (true, true, true) { PinMap.reference with oeLed := 8 } }) =
        true := by decide +kernel
theorem test_reset_in_the_middle :
    next (exec (.shout 0xFF#8) (ready true true true 0x100 (List.replicate 10 EdgeInput.quiet ++ [resetEdge]))) (fun t =>
      outIs 0x000 t && t.mem.oe == Levels.ofNat 9 0x000 && !t.busy && t.upc == 0 && t.rsp.isNone) = true := by decide +kernel
theorem test_first_word_after_reset :
    next (step (State.reset.withFetchWord 16 0x00FF)) (fun t => initialised t && t.cmds.isEmpty) = true := by decide +kernel

/-! ### Witnesses: for every obligation with hypotheses, a case that meets them -/

/-- The state used below: every flag set, nCS asserted, the clock low, nothing driven from outside. -/
def s0 : State := ready true true true 0x110 []

theorem ready_s0 : Ready s0 := by decide +kernel
theorem clear_s0 : ClearFor 42 s0 := by decide +kernel

theorem witness_DecodeAndEncodeAgree : decode 0x1EC#11 = .command (.setout 0x2C#6) := by decide
theorem witness_DecoderIsTotalOnAllWords :
    (0x4FF#11 : CmdWord).toNat < 0x500 ∧ 0x500 ≤ (0x500#11 : CmdWord).toNat ∧ 0x500 ≤ (0x7FF#11 : CmdWord).toNat := by decide
theorem witness_AssemblerEmitsTheCanonicalWord :
    (AsmLine.setrd 0x40).wellFormed = false ∧ (AsmLine.setrd 0x3F).wellFormed = true := by decide

theorem witness_StepRunsTheDecodedCommand :
    { s0 with cmds := [0x3A5#11] }.busy = false ∧ { s0 with cmds := [0x3A5#11] }.cmds = 0x3A5#11 :: [] ∧
      decode 0x3A5#11 = .command (.shout 0xA5#8) := by decide
theorem witness_IdleEdgeHoldsEveryRegister : Idle s0 ∧ s0.cmds = [] ∧ EdgeClear s0.mem.oe (inputAt s0 0) := by decide +kernel

/-- Both ways in: a command in an Initialised state, and `INIT` right after reset. -/
theorem witness_AcceptanceLoadsTheSequencer :
    (Idle { s0 with cmds := [0x12C#11] } ∧ { s0 with cmds := [0x12C#11] }.cmds = 0x12C#11 :: [] ∧
      decode 0x12C#11 = .command (.setout 0x2C#6) ∧ initialised { s0 with cmds := [0x12C#11] } = true ∧
      EdgeClear s0.mem.oe (inputAt s0 0)) ∧
    Idle { State.reset with cmds := [0x0FF#11] } ∧ { State.reset with cmds := [0x0FF#11] }.cmds = 0x0FF#11 :: [] ∧
      decode 0x0FF#11 = .command .init ∧ EdgeClear State.reset.mem.oe (inputAt State.reset 0) := by decide +kernel

/-- In the middle of a `SHIO`, with the feedback on ASDO. -/
def midShio : State := { s0 with busy := true, cmd := 0x4A5#11, upc := 7, sr := 0x52#8, fbsel := true }
/-- Before the last micro-step of a `SETRD`. -/
def lastOfSetrd : State := { s0 with busy := true, cmd := 0x22C#11, upc := 7, sr := 0x2C#8 }
/-- Before the last micro-step of a `SHIO` that has collected 0x3C. -/
def lastOfShio : State := { s0 with busy := true, cmd := 0x4A5#11, upc := 40, sr := 0x3C#8, fbsel := true }
/-- Before the last micro-step of an `INIT` from reset. -/
def lastOfInit : State :=
  { State.reset with
    mem := { State.reset.mem with oe := outMask State.reset.cfg }
    busy := true, cmd := 0x000#11, upc := 4, clkcfg := 0b11#2, busmode := 0b111#3, vregctl := 1#1 }

theorem inv_midShio : Inv midShio where
  cfgValid := by decide +kernel
  memWf := by decide +kernel
  directions := by decide +kernel
  idlePosition := by decide +kernel
  busyCommand := fun _ => ⟨.shio 0xA5#8, by decide +kernel⟩
  busyPosition := by decide +kernel
  busyInitialised := by decide +kernel
  initDirections := by decide +kernel
  feedbackExists := by decide +kernel

theorem inv_lastOfSetrd : Inv lastOfSetrd where
  cfgValid := by decide +kernel
  memWf := by decide +kernel
  directions := by decide +kernel
  idlePosition := by decide +kernel
  busyCommand := fun _ => ⟨.setrd 0x2C#6, by decide +kernel⟩
  busyPosition := by decide +kernel
  busyInitialised := by decide +kernel
  initDirections := by decide +kernel
  feedbackExists := by decide +kernel

theorem inv_lastOfShio : Inv lastOfShio where
  cfgValid := by decide +kernel
  memWf := by decide +kernel
  directions := by decide +kernel
  idlePosition := by decide +kernel
  busyCommand := fun _ => ⟨.shio 0xA5#8, by decide +kernel⟩
  busyPosition := by decide +kernel
  busyInitialised := by decide +kernel
  initDirections := by decide +kernel
  feedbackExists := by decide +kernel

theorem inv_lastOfInit : Inv lastOfInit where
  cfgValid := by decide +kernel
  memWf := by decide +kernel
  directions := by decide +kernel
  idlePosition := by decide +kernel
  busyCommand := fun _ => ⟨.init, by decide +kernel⟩
  busyPosition := by decide +kernel
  busyInitialised := by decide +kernel
  initDirections := by decide +kernel
  feedbackExists := by decide +kernel

theorem inv_s0 : Inv s0 where
  cfgValid := by decide +kernel
  memWf := by decide +kernel
  directions := by decide +kernel
  idlePosition := by decide +kernel
  busyCommand := fun h => absurd h (by decide +kernel)
  busyPosition := by decide +kernel
  busyInitialised := by decide +kernel
  initDirections := by decide +kernel
  feedbackExists := by decide +kernel

theorem exists_next {r : Result} {f : State → Bool} (h : next r f = true) : ∃ t, r = .next t ∧ f t = true := by
  cases r with
  | next t => exact ⟨t, rfl, h⟩
  | fault _ => cases h
  | refused _ => cases h

/-- Inside a command; at the last micro-step of `SETRD`; at that of `SHIO`; at that of a command without a response. -/
theorem witness_OneStepOfTheSequencer :
    (Inv midShio ∧ midShio.busy = true ∧ (inputAt midShio 0).rst = false ∧
      midShio.upc.toNat + 1 < (microProgram midShio.cmd midShio.cfg).length ∧ ∃ t, step midShio = .next t ∧ true) ∧
    (Inv lastOfSetrd ∧ lastOfSetrd.busy = true ∧ (inputAt lastOfSetrd 0).rst = false ∧
      lastOfSetrd.upc.toNat + 1 = (microProgram lastOfSetrd.cmd lastOfSetrd.cfg).length ∧
      decode lastOfSetrd.cmd = .command (.setrd 0x2C#6) ∧ ∃ t, step lastOfSetrd = .next t ∧ true) ∧
    (Inv lastOfShio ∧ lastOfShio.busy = true ∧ (inputAt lastOfShio 0).rst = false ∧
      lastOfShio.upc.toNat + 1 = (microProgram lastOfShio.cmd lastOfShio.cfg).length ∧
      decode lastOfShio.cmd = .command (.shio 0xA5#8) ∧
      ∃ t, step lastOfShio = .next t ∧ (t.rsp == some 0x3C#8) = true) ∧
    Inv lastOfInit ∧ lastOfInit.busy = true ∧ (inputAt lastOfInit 0).rst = false ∧
      lastOfInit.upc.toNat + 1 = (microProgram lastOfInit.cmd lastOfInit.cfg).length ∧
      decode lastOfInit.cmd = .command .init ∧ ∃ t, step lastOfInit = .next t ∧ t.rsp.isNone = true :=
  ⟨⟨inv_midShio, by decide +kernel, by decide +kernel, by decide +kernel, exists_next (f := fun _ => true) (by decide +kernel)⟩,
    ⟨inv_lastOfSetrd, by decide +kernel, by decide +kernel, by decide +kernel, by decide +kernel,
      exists_next (f := fun _ => true) (by decide +kernel)⟩,
    ⟨inv_lastOfShio, by decide +kernel, by decide +kernel, by decide +kernel, by decide +kernel,
      exists_next (f := fun t => t.rsp == some 0x3C#8) (by decide +kernel)⟩,
    inv_lastOfInit, by decide +kernel, by decide +kernel, by decide +kernel, by decide +kernel,
      exists_next (f := fun t => t.rsp.isNone) (by decide +kernel)⟩

theorem witness_BusyCoreAcceptsNoCommand :
    { midShio with cmds := [0x000#11] }.busy = true ∧ ∃ t, step { midShio with cmds := [0x000#11] } = .next t ∧ t.busy = true :=
  ⟨by decide +kernel, exists_next (f := fun t => t.busy) (by decide +kernel)⟩

theorem clearRun_s0 (i : Instr) (h : i ≠ .init) : ClearRun i s0 := by
  cases i with
  | init => exact absurd rfl h
  | setout w => exact fun k hk => clear_s0 k (Nat.lt_of_lt_of_le hk (by simp [microSteps, s0, ready, State.resetOf, Cfg.reference]))
  | setrd w => exact fun k hk => clear_s0 k (Nat.lt_of_lt_of_le hk (by simp [microSteps, s0, ready, State.resetOf, Cfg.reference]))
  | shout b => exact fun k hk => clear_s0 k (Nat.lt_of_lt_of_le hk (by simp [microSteps]))
  | shio b => exact fun k hk => clear_s0 k (Nat.lt_of_lt_of_le hk (by simp [microSteps, s0, ready, State.resetOf, Cfg.reference]))

/-- The second clause at `k = 41`, its largest value for a `SHIO`; the third at the end of that command. -/
theorem witness_CommandIsTheMachinesOwnSteps :
    (∃ u, runUpTo 0 (.shio 0xA5#8) s0 = .next u ∧ u.busy = true) ∧
    (∀ j, j < 41 → ∃ v, runUpTo j (.shio 0xA5#8) s0 = .next v ∧ v.busy = true) ∧
    ∃ u, runUpTo 41 (.shio 0xA5#8) s0 = .next u ∧ (!u.busy) = true :=
  ⟨exists_next (f := fun t => t.busy) (by decide +kernel),
    fun j hj => exists_next (f := fun t => t.busy)
      ((by decide +kernel : ∀ j, j < 41 → next (runUpTo j (.shio 0xA5#8) s0) (fun t => t.busy) = true) j hj),
    exists_next (f := fun t => !t.busy) (by decide +kernel)⟩

/-- Every command: `INIT` right after reset, the others in an Initialised state. -/
theorem witness_EveryCommandCompletesInItsMicroSteps :
    (Idle State.reset ∧ ClearRun .init State.reset) ∧
    ∀ i, i ≠ .init → Idle s0 ∧ initialised s0 = true ∧ ClearRun i s0 :=
  ⟨⟨by decide +kernel, (by decide +kernel : ClearForInit State.reset)⟩, fun i h => ⟨ready_s0.1, ready_s0.2, clearRun_s0 i h⟩⟩

theorem witness_InitPostState :
    valid State.reset.cfg = true ∧ State.reset.busy = false ∧ ClearForInit State.reset := by decide +kernel
theorem witness_InitEffectsInOrder :
    valid State.reset.cfg = true ∧ State.reset.busy = false ∧ ClearForInit State.reset ∧ 0 ≤ 5 ∧ 5 ≤ 5 := by decide +kernel
theorem witness_SecondInitChangesNothing : Ready s0 ∧ ClearFor 6 s0 ∧ 5 ≤ 5 := by decide +kernel

/-- With an edge of the outside still to come. -/
theorem witness_InitialisedUntilReset :
    initialised (ready true true true 0x110 [feedback none none]) = true ∧ NoReset (ready true true true 0x110 [feedback none none]) ∧
      ∃ t, step (ready true true true 0x110 [feedback none none]) = .next t ∧ t.env.isEmpty = true :=
  ⟨by decide +kernel, by decide +kernel, exists_next (f := fun t => t.env.isEmpty) (by decide +kernel)⟩

theorem witness_SetoutWritesTheOutputWord : Ready s0 ∧ ClearRun (.setout 0x2C#6) s0 := ⟨ready_s0, clearRun_s0 _ (by decide)⟩
theorem witness_SetoutPinsChangeOneAtATime :
    Ready s0 ∧ ClearRun (.setout 0x2C#6) s0 ∧ 0 ≤ microSteps s0.cfg (.setout 0x2C#6) ∧ 6 ≤ microSteps s0.cfg (.setout 0x2C#6) :=
  ⟨ready_s0, clearRun_s0 _ (by decide), by decide, by decide⟩
theorem witness_SetoutOverwrites : Ready s0 ∧ ClearFor (2 * (1 + microSteps s0.cfg (.setout 0x2C#6))) s0 := by decide +kernel
/-- No flag set: neither ASDO nor the AS signals exist. -/
def plain : State := ready false false false 0x110 []

/-- With ASDO present, and with neither AS nor PS. -/
theorem witness_SetrdWritesThenSamples :
    (Ready s0 ∧ ClearRun (.setrd 0x2C#6) s0 ∧ (s0.cfg.haveAs || s0.cfg.havePs) = true) ∧
    Ready plain ∧ ClearRun (.setrd 0x2C#6) plain ∧ (plain.cfg.haveAs || plain.cfg.havePs) = false :=
  ⟨⟨ready_s0, clearRun_s0 _ (by decide), by decide⟩, by decide +kernel,
    (by decide +kernel : ClearFor 6 plain), by decide⟩
/-- With ASDO present, and with neither AS nor PS. -/
theorem witness_StatePortPinEvents :
    (Ready s0 ∧ ClearRun (.setrd 0x2C#6) s0 ∧ (s0.cfg.haveAs || s0.cfg.havePs) = true) ∧
    Ready plain ∧ ClearRun (.setrd 0x2C#6) plain ∧ (plain.cfg.haveAs || plain.cfg.havePs) = false :=
  ⟨⟨ready_s0, clearRun_s0 _ (by decide), by decide⟩, by decide +kernel,
    (by decide +kernel : ClearFor 6 plain), by decide⟩
/-- Either writer, bit 3 of the word 0 and 1, with AS-mode and without. -/
theorem witness_OutputWordSelectsTheFeedback :
    (Ready s0 ∧ s0.cfg.haveAs = true ∧
      ClearFor (2 + microSteps s0.cfg (.setout 0x2C#6) + microSteps s0.cfg (.shio 0xA5#8)) s0 ∧
      ClearFor (2 + microSteps s0.cfg (.setrd 0x24#6) + microSteps s0.cfg (.shio 0xA5#8)) s0) ∧
    (Ready plain ∧ plain.cfg.haveAs = false ∧
      ClearFor (2 + microSteps plain.cfg (.setrd 0x24#6) + microSteps plain.cfg (.shio 0xA5#8)) plain) ∧
    (0x2C#6 : StateWord).getLsbD 3 = true ∧ (0x24#6 : StateWord).getLsbD 3 = false := by decide +kernel

theorem witness_ShoutResult : Ready s0 ∧ ClearRun (.shout 0xA5#8) s0 := ⟨ready_s0, clearRun_s0 _ (by decide)⟩
theorem witness_ShoutPinsAtEachMicroStep : Ready s0 ∧ ClearRun (.shout 0xA5#8) s0 ∧ 1 ≤ 1 ∧ 1 ≤ 33 ∧ 33 ≤ 33 :=
  ⟨ready_s0, clearRun_s0 _ (by decide), by decide⟩
theorem witness_ShoutPinEvents : Ready s0 ∧ ClearRun (.shout 0xA5#8) s0 := ⟨ready_s0, clearRun_s0 _ (by decide)⟩

/-- The clock low, and the clock high, at acceptance; either command. -/
theorem witness_ClockEdgesOfAShift :
    (Ready s0 ∧ ClearRun (.shout 0xA5#8) s0 ∧ ClearRun (.shio 0xA5#8) s0 ∧ s0.mem.out.at (pin s0.cfg .tck) = false) ∧
    Ready (ready true true true 0x111 []) ∧ ClearFor 42 (ready true true true 0x111 []) ∧
      (ready true true true 0x111 []).mem.out.at (pin (ready true true true 0x111 []).cfg .tck) = true :=
  ⟨⟨ready_s0, clearRun_s0 _ (by decide), clearRun_s0 _ (by decide), by decide +kernel⟩, by decide +kernel⟩

theorem witness_ShioResult : Ready s0 ∧ ClearRun (.shio 0xA5#8) s0 := ⟨ready_s0, clearRun_s0 _ (by decide)⟩
/-- The first and the last micro-step of the iterations, and both sides of the shift in the middle. -/
theorem witness_ShioPinsAtEachMicroStep :
    Ready s0 ∧ ClearRun (.shio 0xA5#8) s0 ∧ (0 < 8 ∧ 1 ≤ 1 ∧ 1 ≤ 5) ∧ (3 < 8 ∧ 1 ≤ 3 ∧ 3 ≤ 5) ∧ (3 < 8 ∧ 1 ≤ 4 ∧ 4 ≤ 5) ∧
      7 < 8 ∧ 1 ≤ 5 ∧ 5 ≤ 5 :=
  ⟨ready_s0, clearRun_s0 _ (by decide), by decide⟩
theorem witness_ShioPinEvents : Ready s0 ∧ ClearRun (.shio 0xA5#8) s0 := ⟨ready_s0, clearRun_s0 _ (by decide)⟩

/-- Pattern 0x3C on ASDO, nCS asserted. -/
def patternState : State := ready true true true 0x110 (patternOnAsdo 2 0x3C#8 (some true))

theorem witness_ShioReturnsTheExternalPattern :
    Ready patternState ∧ ClearRun (.shio 0xA5#8) patternState ∧ selectedFeedback patternState = .asdo ∧
      ∀ k, k < 8 → (inputAt patternState (sampleEdge patternState.cfg k)).ext.getD
        (pin patternState.cfg (selectedFeedback patternState)) none = some ((0x3C#8 : Byte).getLsbD k) :=
  ⟨by decide +kernel, (by decide +kernel : ClearFor 42 patternState), by decide +kernel, by decide +kernel⟩

/-- TDO wired to TDI, TDI high at acceptance, no AS-mode. -/
def loopState : State := ready false false false 0x010 (loopback true 0xA5#8)

theorem loopedBack_of_check {b : Byte} {s : State}
    (h : ∀ k, k < 8 → next (runUpTo (s.cfg.haveAs.toNat + 5 * k) (.shio b) s) (fun u =>
      (inputAt u 0).ext.getD (pin s.cfg (selectedFeedback s)) none == some (u.mem.out.at (pin s.cfg .tdi))) = true) :
    LoopedBack b s := by
  intro k hk u hu
  have := h k hk
  rw [hu] at this
  simpa [next] using this

theorem witness_ShioLoopbackSkew :
    Ready loopState ∧ ClearRun (.shio 0xA5#8) loopState ∧ LoopedBack 0xA5#8 loopState :=
  ⟨by decide +kernel, (by decide +kernel : ClearFor 41 loopState), loopedBack_of_check (by decide +kernel)⟩

/-- With an input and an output signal; pin 8 is JTAG_EN's, pin 5 belongs to none of the four signals of `JTAG_MIN_MASK`. -/
theorem witness_MasksOfAValidConfiguration :
    valid State.reset.cfg = true ∧ sigExists State.reset.cfg .asdo = true ∧ sigExists State.reset.cfg .oeLed = true ∧
      (jtagMinMask State.reset.cfg).at 8 = true ∧ (jtagMinMask State.reset.cfg).at 5 = false := by decide

/-- Without AS-mode nCE is absent, and no signal owns the pin it is bound to. -/
theorem witness_AbsentSignalReadsOneIgnoresWrites :
    sigExists loopState.cfg .nce = false ∧ ∀ g, sigExists loopState.cfg g = true → pin loopState.cfg g ≠ 2 :=
  ⟨by decide, by intro g; cases g <;> decide⟩

/-- A driven pin; an input pin with a level applied; an input pin with none. -/
theorem witness_LevelOfAPin :
    s0.mem.oe.at 0 = true ∧
    (s0.mem.oe.at 6 = false ∧ (feedback (some true) none).ext.getD 6 none = some true) ∧
    s0.mem.oe.at 7 = false ∧ (feedback (some true) none).ext.getD 7 none = none := by decide +kernel

/-- The first and the last pin; the last holds the level written. -/
theorem witness_WriteOfAPin : 0 < s0.mem.out.length ∧ 8 < s0.mem.out.length ∧ s0.mem.out.at 8 = true := by decide +kernel

theorem witness_StateAfterReset : 0 < State.reset.cfg.npins ∧ 8 < State.reset.cfg.npins ∧ valid State.reset.cfg = true := by
  decide

/-- The state `s0` with an `rst` at its next clock edge. -/
def s0Reset : State := { s0 with env := [resetEdge] }

/-- The clauses over a step: busy; idle with no command, with a command, with a reserved word. -/
theorem witness_ResetWinsOverEveryStep :
    valid s0.cfg = true ∧ contends s0.mem.oe (inputAt s0Reset 0) = false ∧ (inputAt s0Reset 0).rst = true ∧
    (next (step { s0Reset with busy := true, cmd := 0x3A5#11 }) (fun t => !t.busy && !initialised t) &&
      next (step s0Reset) (fun t => !initialised t) &&
      next (step { s0Reset with cmds := [0x12C#11] }) (fun t => !initialised t && t.cmds.isEmpty) &&
      next (step { s0Reset with cmds := [0x500#11] }) (fun t => !initialised t && t.cmds.isEmpty)) = true := by
  refine ⟨by decide +kernel, by decide +kernel, by decide +kernel, ?_⟩
  decide +kernel

/-- `rst` at the acceptance edge; at the first micro-step; at the last micro-step. -/
theorem witness_ResetWinsAndLosesTheCommand :
    (valid s0.cfg = true ∧ s0.busy = false ∧ contends s0.mem.oe (inputAt { s0 with env := [resetEdge] } 0) = false ∧
      (inputAt { s0 with env := [resetEdge] } 0).rst = true) ∧
    (0 < longestProgram ∧
      ∃ u, runUpTo 0 (.shio 0xA5#8) { s0 with env := [EdgeInput.quiet, resetEdge] } = .next u ∧
        (u.busy && !contends u.mem.oe (inputAt u 0) && (inputAt u 0).rst) = true) ∧
    40 < longestProgram ∧
      ∃ u, runUpTo 40 (.shio 0xA5#8) { s0 with env := List.replicate 41 EdgeInput.quiet ++ [resetEdge] } = .next u ∧
        (u.busy && !contends u.mem.oe (inputAt u 0) && (inputAt u 0).rst) = true :=
  ⟨by decide +kernel,
    ⟨by decide, exists_next (f := fun u => u.busy && !contends u.mem.oe (inputAt u 0) && (inputAt u 0).rst) (by decide +kernel)⟩,
    by decide, exists_next (f := fun u => u.busy && !contends u.mem.oe (inputAt u 0) && (inputAt u 0).rst) (by decide +kernel)⟩

theorem witness_InvalidConfigurationIsRefused : valid { State.reset.cfg with npins := 8 } = false := by decide
theorem witness_ContentionIsRefused :
    valid s0.cfg = true ∧ s0.mem.oe.at 4 = true ∧
      (inputAt { s0 with env := [drivesTdi false] } 0).ext.getD 4 none = some false := by decide +kernel
theorem witness_ReservedWordIsRefused :
    Idle { s0 with cmds := [0x500#11] } ∧ { s0 with cmds := [0x500#11] }.cmds = 0x500#11 :: [] ∧
      0x500 ≤ (0x500#11 : CmdWord).toNat ∧ EdgeClear s0.mem.oe (inputAt s0 0) := by decide +kernel
theorem witness_OnlyInitIsAdmittedBeforeInit :
    (Instr.setout 0x2C#6 ≠ .init ∧ Idle State.reset ∧ initialised State.reset = false ∧
      EdgeClear State.reset.mem.oe (inputAt State.reset 0)) ∧ valid State.reset.cfg = true := by decide +kernel

/-- Without, and with, an `rst` at the edge. -/
theorem witness_BusySequencerAlwaysMoves :
    Inv midShio ∧ midShio.busy = true ∧ contends midShio.mem.oe (inputAt midShio 0) = false ∧
      contends midShio.mem.oe resetEdge = false :=
  ⟨inv_midShio, by decide +kernel, by decide +kernel, by decide +kernel⟩

theorem witness_InvariantHoldsAfterReset : valid State.reset.cfg = true := by decide

/-- A busy state inside `SHIO`, and an idle one. -/
theorem witness_EveryStepKeepsTheInvariant :
    (Inv midShio ∧ ∃ t, step midShio = .next t ∧ t.busy = true) ∧ Inv s0 ∧ ∃ t, step s0 = .next t ∧ (!t.busy) = true :=
  ⟨⟨inv_midShio, exists_next (f := fun t => t.busy) (by decide +kernel)⟩,
    inv_s0, exists_next (f := fun t => !t.busy) (by decide +kernel)⟩

/-- The last micro-step of the first `INIT` after reset. -/
theorem witness_UnwrittenLatchesKeepOutReset :
    Inv lastOfInit ∧ UnwrittenKeepReset lastOfInit ∧ NoReset lastOfInit ∧
      ∃ t, step lastOfInit = .next t ∧ initialised t = true :=
  ⟨inv_lastOfInit, by unfold UnwrittenKeepReset; decide +kernel, by decide +kernel,
    exists_next (f := initialised) (by decide +kernel)⟩

theorem witness_NoHiddenStateSurvivesACommand :
    s0.busy = false ∧ { s0 with sr := 0xFF#8, c := true, fbsel := true, cmd := 0x3FF#11, rsp := some 0x01#8 }.busy = false ∧
      { s0 with sr := 0xFF#8, c := true, fbsel := true, cmd := 0x3FF#11, rsp := some 0x01#8 } ≠ s0 ∧
      persistent { s0 with sr := 0xFF#8, c := true, fbsel := true, cmd := 0x3FF#11, rsp := some 0x01#8 } = persistent s0 := by
  decide +kernel

end Sys2Proof.Tests
end

section
/-! PROOFS. Scope: every step is one clock edge, at which an invalid configuration is refused before anything else
happens (00_scope.md R8, 20_memory.md R55). -/

namespace Sys2Proof.Machine

/-- At an edge of an invalid configuration nothing happens, whatever the action. -/
theorem atEdge_invalid {s : State} {act : EdgeInput → State → Result} (hv : valid s.cfg = false) :
    atEdge s act = .refused .invalidConfiguration := by
  simp [atEdge, hv]

/-- A command presented by the host is taken from its queue. -/
theorem takePresented_cons {i : Instr} {s : State} {w : CmdWord} {ws : List CmdWord} (hw : s.cmds = w :: ws)
    (hd : decode w = .command i) : takePresented i s = { s with cmds := ws } := by
  simp [takePresented, hw, hd]

/-- A whole command of an idle CORE begins with the clock edge of its acceptance (10_state.md R37). -/
theorem exec_eq_atEdge {s : State} (hb : s.busy = false) (i : Instr) :
    ∃ act, exec i s = atEdge (takePresented i s) act := by
  rw [exec_eq_runCommand, runUpTo, if_neg (by simp [hb])]
  exact ⟨_, rfl⟩

/-- The host's queue at the clock edge of a step: while idle, the word presented has been taken from it. -/
def edgeQueue (s : State) : List CmdWord := if s.busy then s.cmds else s.cmds.tail

/-- Every step begins with a clock edge: of a micro-step, of a command's acceptance, of a reserved word, or an idle one. -/
theorem step_eq_atEdge (s : State) : ∃ act, step s = atEdge { s with cmds := edgeQueue s } act := by
  unfold step edgeQueue
  split
  case isTrue hb => exact ⟨microStep, rfl⟩
  case isFalse hb =>
    split
    next hw => exact ⟨fun _ t => .next t, by rw [hw, idleEdge, List.tail_nil, ← hw]⟩
    next w ws hw =>
      split
      next i hd =>
        obtain ⟨act, h⟩ := exec_eq_atEdge (by simpa using hb) i
        exact ⟨act, by rw [h, takePresented_cons hw hd, hw, List.tail_cons]⟩
      next => exact ⟨fun _ _ => .refused .reservedCommand, rfl⟩

/-- Settles O39: every step begins with a clock edge, and every edge of an invalid configuration is refused. -/
theorem invalidConfigurationIsRefused : Obligations.InvalidConfigurationIsRefused := by
  intro s hv
  obtain ⟨act, h⟩ := step_eq_atEdge s
  exact h.trans (atEdge_invalid hv)

end Sys2Proof.Machine
end

section
/-! PROOFS. The state and its sequencer (10_state.md): what acceptance and a micro-step write, what every step keeps, and
that a command is its micro-steps and depends on no transient register. -/

namespace Sys2Proof.Machine

/-! ### Micro-steps -/

/-- The micro-steps that write a control register or the directions (40_initializer.md R100). -/
def Micro.configures : Micro → Bool
  | .writeClkcfg _ | .writeBusmode _ | .assignOe | .writeVregctl _ | .orOe => true
  | .writeCmdBit _ _ | .sampleInto _ _ | .presentBit _ | .writeLevel _ _ | .shiftZero | .shiftCapture | .settle
  | .dispatch | .sampleFeedback => false

/-- No command but `INIT` has a micro-step that configures CORE. -/
theorem not_configures_of_mem_programOf {i : Instr} (hi : i ≠ .init) {cfg : Cfg} {m : Micro}
    (hm : m ∈ programOf i cfg) : m.configures = false := by
  have hall : (programOf i cfg).all (fun m => !m.configures) = true := by
    cases i with
    | init => exact absurd rfl hi
    | setout w =>
      cases h1 : cfg.haveAs <;> cases h2 : cfg.haveLed <;>
        simp [programOf, setoutProgram, h1, h2, Micro.configures]
    | setrd w =>
      cases h1 : cfg.haveAs <;> cases h2 : cfg.haveLed <;>
        simp [programOf, setrdProgram, setoutProgram, h1, h2, Micro.configures]
    | shout b => rfl
    | shio b => cases h1 : cfg.haveAs <;> simp [programOf, shioProgram, shioBit, h1, Micro.configures]
  simpa using List.all_eq_true.1 hall m hm

/-- A program with the dispatch micro-step is one of AS-mode (43_mode_dispatcher.md R141). -/
theorem haveAs_of_dispatch_mem {i : Instr} {cfg : Cfg} (hm : Micro.dispatch ∈ programOf i cfg) : cfg.haveAs = true := by
  cases i with
  | init => simp [programOf, initProgram] at hm
  | setout w => simp [programOf, setoutProgram] at hm
  | setrd w => simp [programOf, setrdProgram, setoutProgram] at hm
  | shout b => simp [programOf, shoutProgram, shoutBit] at hm
  | shio b => simpa [programOf, shioProgram, shioBit] using hm

/-- The position of a micro-step of `INIT` (R100). -/
theorem initProgram_getElem?_eq_some {n : Nat} {m : Micro} (h : initProgram[n]? = some m) :
    (n = 0 ∧ m = .writeClkcfg 0b11#2) ∨ (n = 1 ∧ m = .writeBusmode 0b111#3) ∨ (n = 2 ∧ m = .assignOe) ∨
      (n = 3 ∧ m = .writeVregctl 1#1) ∨ (n = 4 ∧ m = .orOe) := by
  match n with
  | 0 | 1 | 2 | 3 | 4 => simpa [initProgram, eq_comm] using h
  | n + 5 => simp [initProgram] at h

theorem perform_of_not_configures {m : Micro} (hm : m.configures = false) (e : EdgeInput) (s : State) :
    (perform m e s).mem.oe = s.mem.oe ∧ (perform m e s).clkcfg = s.clkcfg ∧
      (perform m e s).busmode = s.busmode ∧ (perform m e s).vregctl = s.vregctl := by
  revert hm
  cases m <;> simp [Micro.configures, perform]

theorem perform_initialised {m : Micro} (hm : m.configures = false) (e : EdgeInput) (s : State) :
    initialised (perform m e s) = initialised s := by
  obtain ⟨hoe, hclk, hbus, hreg⟩ := perform_of_not_configures hm e s
  simp only [initialised, hoe, hclk, hbus, hreg, perform_cfg]

theorem perform_fbsel {m : Micro} (hm : m ≠ .dispatch) (e : EdgeInput) (s : State) :
    (perform m e s).fbsel = s.fbsel := by
  cases m with
  | dispatch => exact absurd rfl hm
  | _ => simp [perform]

/-- A micro-step that stands in a running command is one of the program of that command. -/
theorem micro_of_running {s : State} {i : Instr} {m : Micro} (hd : decode s.cmd = .command i)
    (hm : (microProgram s.cmd s.cfg)[s.upc.toNat]? = some m) : (programOf i s.cfg)[s.upc.toNat]? = some m := by
  rwa [microProgram_of_decode hd] at hm

/-! ### The advance past a micro-step -/

theorem advance_of_last {len : Nat} {s : State} (h : (s.upc + 1).toNat = len) :
    advance len s = complete (nextUpc s) := if_pos h

theorem advance_of_not_last {len : Nat} {s : State} (h : (s.upc + 1).toNat ≠ len) : advance len s = nextUpc s := if_neg h

@[simp] theorem initialised_advance (len : Nat) (s : State) : initialised (advance len s) = initialised s := by
  simp [initialised]

/-- `upc` moves to the next micro-step of a program. -/
theorem upc_succ_of_micro {s : State} {m : Micro} (hm : (microProgram s.cmd s.cfg)[s.upc.toNat]? = some m) :
    s.upc.toNat < (microProgram s.cmd s.cfg).length ∧ (s.upc + 1).toNat = s.upc.toNat + 1 := by
  obtain ⟨hlt, -⟩ := List.getElem?_eq_some_iff.1 hm
  exact ⟨hlt, upc_add_one_toNat hlt (length_microProgram_le _ _)⟩

/-! ### What every step keeps -/

/-- `P` is kept by each of the things a clock edge consists of: a change of the host's queue, reset, the edge's passing,
acceptance (10_state.md R37), and a micro-step with its advance (R36). -/
structure KeptAtEveryEdge (P : State → Prop) : Prop where
  queue : ∀ s ws, P s → P { s with cmds := ws }
  reset : ∀ s, P s → (inputAt s 0).rst = true → P (resetEvent s)
  pass : ∀ s, P s → P (passEdge s)
  accept : ∀ s i w, P s → decode w = .command i → admitted i s = true → P (loadCommand w s)
  micro : ∀ s m e, P s → s.busy = true → (microProgram s.cmd s.cfg)[s.upc.toNat]? = some m →
    P (advance (microProgram s.cmd s.cfg).length (perform m e s))

section
variable {P : State → Prop} (hP : KeptAtEveryEdge P) {s t : State}
include hP

theorem KeptAtEveryEdge.of_atEdge {act : EdgeInput → State → Result} (hs : P s) (h : atEdge s act = .next t)
    (hact : act (inputAt s 0) (passEdge s) = .next t → P t) : P t := by
  obtain ⟨-, -, ⟨hr, rfl⟩ | ⟨-, ha⟩⟩ := atEdge_next h
  · exact hP.reset s hs hr
  · exact hact ha

theorem KeptAtEveryEdge.of_seqStep (hs : P s) (hb : s.busy = true) (h : seqStep s = .next t) : P t := by
  obtain ⟨-, -, ⟨hr, rfl⟩ | ⟨-, m, hm, rfl⟩⟩ := seqStep_next h
  · exact hP.reset s hs hr
  · exact hP.micro (passEdge s) m _ (hP.pass s hs) hb hm

theorem KeptAtEveryEdge.of_finish {n : Nat} (hs : P s) (h : finish n s = .next t) : P t := by
  induction n generalizing s with
  | zero => cases h; exact hs
  | succ n ih =>
    by_cases hb : s.busy = true
    · cases hq : seqStep s with
      | next u =>
        rw [finish_succ_next hb hq] at h
        exact ih (hP.of_seqStep hs hb hq) h
      | fault r => simp [finish, hb, hq] at h
      | refused r => simp [finish, hb, hq] at h
    · rw [finish_idle (by simpa using hb)] at h
      cases h; exact hs

theorem KeptAtEveryEdge.of_takePresented (hs : P s) (i : Instr) : P (takePresented i s) := by
  unfold takePresented
  split
  · split
    · exact hP.queue s _ hs
    · exact hs
  · exact hs

theorem KeptAtEveryEdge.of_runUpTo {n : Nat} {i : Instr} (hs : P s) (h : runUpTo n i s = .next t) : P t := by
  have hq := hP.of_takePresented hs i
  unfold runUpTo at h
  split at h
  · cases h
  · refine hP.of_atEdge hq h fun ha => ?_
    split at ha
    case isTrue hadm => exact hP.of_finish (hP.accept _ i _ (hP.pass _ hq) (decode_presentedWord i s) hadm) ha
    case isFalse => cases ha

/-- What is kept by each thing a clock edge consists of is kept by every step. -/
theorem KeptAtEveryEdge.of_step (hs : P s) (h : step s = .next t) : P t := by
  unfold step at h
  split at h
  case isTrue hb => exact hP.of_seqStep hs hb h
  case isFalse =>
    split at h
    · exact hP.of_atEdge hs h fun ha => by cases ha; exact hP.pass s hs
    · split at h
      · exact hP.of_runUpTo hs ((exec_eq_runCommand _ s).symm.trans h)
      · exact hP.of_atEdge (hP.queue s _ hs) h nofun

end

/-! ### The invariant -/

theorem admitted_iff {i : Instr} {s : State} : admitted i s = true ↔ i = .init ∨ initialised s = true := by
  cases i <;> simp [admitted]

/-- What the invariant asks of an idle state. -/
theorem Inv.of_idle {s : State} (hv : valid s.cfg = true) (hw : s.mem.wf s.cfg.npins)
    (hd : s.mem.oe = List.replicate s.cfg.npins false ∨ s.mem.oe = outMask s.cfg) (hb : s.busy = false)
    (hu : s.upc = 0) : Inv s where
  cfgValid := hv
  memWf := hw
  directions := hd
  idlePosition := fun _ => hu
  busyCommand := by simp [hb]
  busyPosition := by simp [hb]
  busyInitialised := by simp [hb]
  initDirections := by simp [hb]
  feedbackExists := by simp [hb]

theorem inv_resetOf {cfg : Cfg} (hv : valid cfg = true) (u : PowerOn) : Inv (State.resetOf cfg u) :=
  .of_idle hv (resetOf_wf cfg u) (.inl rfl) rfl rfl

theorem inv_resetEvent {s : State} (hv : valid s.cfg = true) : Inv (resetEvent s) :=
  .of_idle hv (resetEvent_wf s) (.inl rfl) rfl rfl

/-- Acceptance enters the invariant's busy part at `upc` 0 (10_state.md R37). -/
theorem inv_loadCommand {s : State} {i : Instr} {w : CmdWord} (h : Inv s) (hd : decode w = .command i)
    (ha : admitted i s = true) : Inv (loadCommand w s) where
  cfgValid := h.cfgValid
  memWf := h.memWf
  directions := h.directions
  idlePosition := by simp
  busyCommand := fun _ => ⟨i, hd⟩
  busyPosition := fun _ => by
    simp [microProgram_of_decode hd, length_programOf, microSteps_pos]
  busyInitialised := fun _ hne => (admitted_iff.1 ha).resolve_left fun hi => hne (hd.trans (hi ▸ rfl))
  initDirections := by simp
  feedbackExists := by simp

section
variable {s : State} {m : Micro} (h : Inv s) (hb : s.busy = true)
  (hm : (microProgram s.cmd s.cfg)[s.upc.toNat]? = some m)
include h hb hm

/-- A running command with a micro-step that configures CORE is `INIT`. -/
theorem Inv.not_configures_or_init : m.configures = false ∨ decode s.cmd = .command .init := by
  obtain ⟨i, hd⟩ := h.busyCommand hb
  by_cases hi : i = .init
  · exact .inr (hi ▸ hd)
  · exact .inl (not_configures_of_mem_programOf hi (List.mem_of_getElem? (micro_of_running hd hm)))

/-- The directions after a micro-step of `INIT`: `OUT_MASK` from the third on, unchanged before it; the last one adds
nothing to what the third has set (R100, R101). -/
theorem Inv.init_perform_oe (hd : decode s.cmd = .command .init) (e : EdgeInput) :
    (perform m e s).mem.oe = if 2 ≤ s.upc.toNat then outMask s.cfg else s.mem.oe := by
  have hoe := h.initDirections hb hd
  obtain ⟨hn, rfl⟩ | ⟨hn, rfl⟩ | ⟨hn, rfl⟩ | ⟨hn, rfl⟩ | ⟨hn, rfl⟩ :=
    initProgram_getElem?_eq_some (micro_of_running hd hm)
  · simp [perform, hn]
  · simp [perform, hn]
  · simp [perform, hn]
  · simp [perform, hn, hoe]
  · simp [perform, hn, hoe, outMask_or_jtagMinMask]

/-- A micro-step leaves the directions all off or `OUT_MASK` (10_state.md R22). -/
theorem Inv.perform_directions (e : EdgeInput) :
    (perform m e s).mem.oe = List.replicate s.cfg.npins false ∨ (perform m e s).mem.oe = outMask s.cfg := by
  obtain hc | hd := h.not_configures_or_init hb hm
  · rw [(perform_of_not_configures hc e s).1]
    exact h.directions
  · rw [h.init_perform_oe hb hm hd]
    split
    · exact .inr rfl
    · exact h.directions

/-- A micro-step sets `FBSEL` only where ASDO exists (43_mode_dispatcher.md R145). -/
theorem Inv.perform_feedbackExists (e : EdgeInput) (hf : (perform m e s).fbsel = true) : s.cfg.haveAs = true := by
  obtain ⟨i, hd⟩ := h.busyCommand hb
  by_cases hdis : m = .dispatch
  · subst hdis
    exact haveAs_of_dispatch_mem (List.mem_of_getElem? (micro_of_running hd hm))
  · exact h.feedbackExists hb (by rwa [perform_fbsel hdis] at hf)

/-- A micro-step and its advance keep the invariant: after the last one CORE is idle, before it `upc` stays in the program. -/
theorem Inv.micro (e : EdgeInput) : Inv (advance (microProgram s.cmd s.cfg).length (perform m e s)) := by
  obtain ⟨hlt, hup⟩ := upc_succ_of_micro hm
  have hv : valid (perform m e s).cfg = true := by simpa using h.cfgValid
  have hw : (perform m e s).mem.wf (perform m e s).cfg.npins := by simpa using perform_wf h.memWf
  have hdir := h.perform_directions hb hm e
  by_cases hlast : (s.upc + 1).toNat = (microProgram s.cmd s.cfg).length
  · rw [advance_of_last (by simpa using hlast)]
    exact .of_idle hv hw (by simpa using hdir) rfl rfl
  · have hin : (s.upc + 1).toNat < (microProgram s.cmd s.cfg).length := by omega
    rw [advance_of_not_last (by simpa using hlast)]
    exact {
      cfgValid := hv
      memWf := hw
      directions := by simpa using hdir
      idlePosition := by simp [hb]
      busyCommand := by simpa using h.busyCommand
      busyPosition := fun _ => by simpa using hin
      busyInitialised := fun _ hne => by
        have hne' : decode s.cmd ≠ .command .init := by simpa using hne
        have hc := (h.not_configures_or_init hb hm).resolve_right hne'
        exact (perform_initialised hc e s).trans (h.busyInitialised hb hne')
      initDirections := fun _ hd h3 => by
        have hup3 : 3 ≤ (s.upc + 1).toNat := by simpa using h3
        have h2 : 2 ≤ s.upc.toNat := by omega
        simpa [h2] using h.init_perform_oe hb hm (by simpa using hd) e
      feedbackExists := fun _ hf => by simpa using h.perform_feedbackExists hb hm e hf }

end

theorem inv_keptAtEveryEdge : KeptAtEveryEdge Inv where
  queue _ _ h := { h with }
  reset _ h _ := inv_resetEvent h.cfgValid
  pass _ h := { h with }
  accept _ _ _ h hd ha := inv_loadCommand h hd ha
  micro _ _ e h hb hm := h.micro hb hm e

/-- Settles O45: the invariant is kept by each thing a clock edge consists of, so by every step. -/
theorem everyStepKeepsTheInvariant : Obligations.EveryStepKeepsTheInvariant :=
  fun _ _ hs h => inv_keptAtEveryEdge.of_step hs h

/-- Settles O44: after reset CORE is idle at `upc` 0 and drives no pin. -/
theorem invariantHoldsAfterReset : Obligations.InvariantHoldsAfterReset :=
  ⟨fun _ u hv => inv_resetOf hv u, inv_resetOf (by decide) _⟩

/-! ### Initialised -/

theorem initialised_iff {s : State} :
    initialised s = true ↔
      s.mem.oe = outMask s.cfg ∧ s.clkcfg = 0b11#2 ∧ s.busmode = 0b111#3 ∧ s.vregctl = 1#1 := by
  simp [initialised, and_assoc]

/-- `INIT` writes the values that make CORE Initialised, so it changes nothing there (40_initializer.md R103). -/
theorem initialised_perform_initProgram {s : State} (h : initialised s = true) {m : Micro} (hm : m ∈ initProgram)
    (e : EdgeInput) : initialised (perform m e s) = true := by
  obtain ⟨hoe, hclk, hbus, hreg⟩ := initialised_iff.1 h
  simp only [initProgram, List.mem_cons, List.not_mem_nil, or_false] at hm
  rw [initialised_iff]
  obtain rfl | rfl | rfl | rfl | rfl := hm
  · exact ⟨hoe, rfl, hbus, hreg⟩
  · exact ⟨hoe, hclk, rfl, hreg⟩
  · exact ⟨rfl, hclk, hbus, hreg⟩
  · exact ⟨hoe, hclk, hbus, rfl⟩
  · exact ⟨by simp [perform, hoe, outMask_or_jtagMinMask], hclk, hbus, hreg⟩

/-- No micro-step of any command ends `Initialised`. -/
theorem initialised_perform {s : State} (h : initialised s = true) {m : Micro} {w : CmdWord} {cfg : Cfg}
    (hm : m ∈ microProgram w cfg) (e : EdgeInput) : initialised (perform m e s) = true := by
  unfold microProgram at hm
  split at hm
  case h_1 i _ =>
    by_cases hi : i = .init
    · subst hi
      exact initialised_perform_initProgram h hm e
    · exact (perform_initialised (not_configures_of_mem_programOf hi hm) e s).trans h
  case h_2 => cases hm

/-- Where the script holds no `rst`, the next clock edge has none. -/
theorem NoReset.inputAt_zero {s : State} (h : NoReset s) : (inputAt s 0).rst = false := by
  unfold inputAt
  cases hs : s.env with
  | nil => rfl
  | cons e es => exact h e (by simp [hs])

theorem initialised_keptAtEveryEdge : KeptAtEveryEdge fun s => initialised s = true ∧ NoReset s where
  queue _ _ h := h
  reset s h hr := by simp [NoReset.inputAt_zero h.2] at hr
  pass _ h := ⟨h.1, fun e he => h.2 e (List.mem_of_mem_tail he)⟩
  accept _ _ _ h _ _ := h
  micro s m e h _ hm :=
    ⟨by simpa using initialised_perform h.1 (List.mem_of_getElem? hm) e, by simpa [NoReset] using h.2⟩

/-- Settles O16: without `rst`, being Initialised is kept by each thing a clock edge consists of, so by every step. -/
theorem initialisedUntilReset : Obligations.InitialisedUntilReset :=
  fun _ _ hi hn h => initialised_keptAtEveryEdge.of_step ⟨hi, hn⟩ h

/-! ### Acceptance -/

/-- The word accepted is the very word the host presents. -/
theorem presentedWord_cons {i : Instr} {s : State} {w : CmdWord} {ws : List CmdWord} (hw : s.cmds = w :: ws)
    (hd : decode w = .command i) : presentedWord i s = w := by
  simp [presentedWord, hw, hd]

/-- Settles O6: the idle branch of a step. -/
theorem stepRunsTheDecodedCommand : Obligations.StepRunsTheDecodedCommand := by
  intro s w ws i hb hw hd
  exact ⟨by simp [step, hb, hw, hd], presentedWord_cons hw hd, takePresented_cons hw hd⟩

/-- Settles O8: at a clear edge an admitted command is accepted, and no micro-step has happened yet. -/
theorem acceptanceLoadsTheSequencer : Obligations.AcceptanceLoadsTheSequencer := by
  rintro s w ws i ⟨hv, -, hb⟩ hw hd hi hc
  rw [runUpTo_clear hv hb hc (admitted_iff.2 hi), accepted, presentedWord_cons hw hd, takePresented_cons hw hd]
  rfl

/-! ### A step while `BUSY = 1` -/

theorem step_of_busy {s : State} (hb : s.busy = true) : step s = seqStep s := if_pos hb

theorem responseOf_setrd {s : State} {w : StateWord} (hd : decode s.cmd = .command (.setrd w)) :
    responseOf s = some (inputWordResponse s.sr) := by
  simp [responseOf, hd]

theorem responseOf_shio {s : State} {b : Byte} (hd : decode s.cmd = .command (.shio b)) : responseOf s = some s.sr := by
  simp [responseOf, hd]

/-- `SETRD` and `SHIO` alone return a response (10_state.md R38). -/
theorem responseOf_eq_none {s : State} (hsetrd : ∀ w, decode s.cmd ≠ .command (.setrd w))
    (hshio : ∀ b, decode s.cmd ≠ .command (.shio b)) : responseOf s = none := by
  unfold responseOf
  split
  next w hd => exact absurd hd (hsetrd w)
  next b hd => exact absurd hd (hshio b)
  next => rfl

/-- Settles O10: a busy step is a reset, which clears `BUSY`, or a micro-step, which writes neither `CMD` nor the queue. -/
theorem busyCoreAcceptsNoCommand : Obligations.BusyCoreAcceptsNoCommand := by
  intro s t hb h
  rw [step_of_busy hb] at h
  refine ⟨by simp [cmdReady, hb], ?_⟩
  obtain ⟨-, -, ⟨-, rfl⟩ | ⟨-, m, -, rfl⟩⟩ := seqStep_next h
  · exact ⟨rfl, nofun⟩
  · simp

/-- Settles O9: without `rst` a busy step is the micro-step at `upc`, then the advance, which completes after the last. -/
theorem oneStepOfTheSequencer : Obligations.OneStepOfTheSequencer := by
  intro s t _ hb hr h
  rw [step_of_busy hb] at h
  obtain ⟨-, -, ⟨hr', -⟩ | ⟨-, m, hm, rfl⟩⟩ := seqStep_next h
  · simp [hr] at hr'
  · obtain ⟨-, hup⟩ := upc_succ_of_micro hm
    refine ⟨m, hm, ?_⟩
    rw [perform_passEdge]
    -- The twelve fields that no advance writes.
    iterate 12 refine ⟨by simp, ?_⟩
    refine ⟨fun hlt => ?_, fun hlast => ?_⟩
    · have hne : (s.upc + 1).toNat ≠ (microProgram s.cmd s.cfg).length := by omega
      rw [advance_of_not_last (by simpa using hne)]
      exact ⟨by simpa using hb, by simpa using hup, rfl⟩
    · rw [advance_of_last (by simpa using hup.trans hlast)]
      exact ⟨rfl, rfl, fun w hd => responseOf_setrd (by simpa using hd), fun b hd => responseOf_shio (by simpa using hd),
        fun hsetrd hshio => responseOf_eq_none (by simpa using hsetrd) (by simpa using hshio)⟩

/-! ### A command is its micro-steps -/

/-- `k + 1` steps of the machine are `k` steps and then one more. -/
theorem steps_succ_last {k : Nat} {s u : State} (h : steps k s = .next u) : steps (k + 1) s = step u := by
  induction k generalizing s with
  | zero =>
    cases h
    cases hu : step u <;> simp [steps, hu]
  | succ k ih =>
    cases hs : step s with
    | next t =>
      have hk : ∀ n, steps (n + 1) s = steps n t := fun n => by simp [steps, hs]
      rw [hk] at h ⊢
      exact ih h
    | fault r => simp [steps, hs] at h
    | refused r => simp [steps, hs] at h

/-- A command whose `BUSY` still stands moves on by the machine's own step. -/
theorem runUpTo_succ_of_busy {n : Nat} {i : Instr} {s u : State} (h : runUpTo n i s = .next u) (hb : u.busy = true) :
    runUpTo (n + 1) i s = step u := by
  rw [runUpTo_succ, h, step_of_busy hb]
  simp [hb]

/-- A command whose `BUSY` has fallen moves no further. -/
theorem runUpTo_add_of_idle {n : Nat} {i : Instr} {s u : State} (h : runUpTo n i s = .next u) (hb : u.busy = false)
    (k : Nat) : runUpTo (n + k) i s = .next u := by
  induction k with
  | zero => exact h
  | succ k ih =>
    rw [← Nat.add_assoc, runUpTo_succ, ih]
    simp [hb]

/-- Micro-steps of the meaning are steps of the machine, as long as `BUSY` stands. -/
theorem steps_eq_runUpTo {i : Instr} {s u : State} (h : runUpTo 0 i s = .next u) {k : Nat}
    (hk : ∀ j, j < k → ∃ v, runUpTo j i s = .next v ∧ v.busy = true) : steps k u = runUpTo k i s := by
  induction k with
  | zero => exact h.symm
  | succ k ih =>
    obtain ⟨v, hv, hb⟩ := hk k (Nat.lt_succ_self k)
    have hsteps : steps k u = .next v := (ih fun j hj => hk j (Nat.lt_succ_of_lt hj)).trans hv
    rw [steps_succ_last hsteps, runUpTo_succ_of_busy hv hb]

/-- Settles O11, by induction on the number of micro-steps. -/
theorem commandIsTheMachinesOwnSteps : Obligations.CommandIsTheMachinesOwnSteps :=
  ⟨exec_eq_runCommand, fun _ _ _ h _ hk => steps_eq_runUpTo h hk, fun _ _ _ _ k h hb => runUpTo_add_of_idle h hb k⟩

/-! ### No hidden state -/

/-- The state with the transient registers 0 and no response: the fields that acceptance and its clock edge write over. -/
def clearTransients (s : State) : State :=
  { s with cmd := 0, upc := 0, sr := 0, c := false, fbsel := false, rsp := none }

theorem takePresented_clearTransients (i : Instr) (s : State) :
    takePresented i (clearTransients s) = clearTransients (takePresented i s) := by
  cases hs : s.cmds with
  | nil => simp [takePresented, clearTransients, hs]
  | cons w ws =>
    by_cases hd : decode w = .command i
    · simp [takePresented, clearTransients, hs, hd]
    · simp [takePresented, clearTransients, hs, hd]

/-- A clock edge whose action does not depend on the transient registers does not either: reset writes over them too. -/
theorem atEdge_clearTransients {s : State} {act : EdgeInput → State → Result}
    (h : ∀ e, act e (passEdge (clearTransients s)) = act e (passEdge s)) :
    atEdge (clearTransients s) act = atEdge s act := by
  unfold atEdge
  rw [h]
  rfl

theorem admitted_clearTransients (i : Instr) (s : State) :
    admitted i (passEdge (clearTransients s)) = admitted i (passEdge s) := by
  cases i <;> rfl

/-- Acceptance writes every transient register, so the command after it does not depend on them (10_state.md R37, R39). -/
theorem runUpTo_clearTransients (n : Nat) (i : Instr) (s : State) :
    runUpTo n i (clearTransients s) = runUpTo n i s := by
  unfold runUpTo
  rw [takePresented_clearTransients, atEdge_clearTransients]
  · rfl
  · intro _
    rw [admitted_clearTransients]
    rfl

/-- States that differ in transient registers and the response port alone. -/
theorem clearTransients_eq {s s' : State} (hb : s'.busy = s.busy) (hcfg : s'.cfg = s.cfg)
    (hp : persistent s' = persistent s) (hcmds : s'.cmds = s.cmds) (henv : s'.env = s.env)
    (hdraws : s'.draws = s.draws) : clearTransients s' = clearTransients s := by
  simp only [persistent, Prod.mk.injEq] at hp
  obtain ⟨hmem, hclk, hbus, hreg⟩ := hp
  simp [clearTransients, *]

/-- Settles O47: both states have the outcome of the one state with the transient registers cleared. -/
theorem noHiddenStateSurvivesACommand : Obligations.NoHiddenStateSurvivesACommand := by
  intro i s s' hb hb' hcfg hp hcmds henv hdraws
  calc exec i s' = runUpTo longestProgram i (clearTransients s') := by
        rw [exec_eq_runCommand, runUpTo_clearTransients]
    _ = runUpTo longestProgram i (clearTransients s) := by
        rw [clearTransients_eq (hb'.trans hb.symm) hcfg hp hcmds henv hdraws]
    _ = exec i s := by rw [exec_eq_runCommand, runUpTo_clearTransients]

/-! ### Reset -/

/-- A valid configuration has an output, so `OUT_MASK` drives a pin. -/
theorem replicate_false_ne_outMask {cfg : Cfg} (hv : valid cfg = true) : List.replicate cfg.npins false ≠ outMask cfg := by
  intro h
  have htck : (outMask cfg).at (pin cfg .tck) = true := at_outMask_pin hv (g := .tck) rfl
  rw [← h, Levels.at_replicate_false] at htck
  cases htck

/-- Settles O37: CORE is not Initialised there because it drives no pin. -/
theorem stateAfterReset : Obligations.StateAfterReset := by
  intro cfg u
  refine ⟨fun p hp => ?_, Levels.at_replicate_false cfg.npins, rfl, rfl, rfl, fun hv => ?_⟩
  · simp [State.resetOf, Levels.at_eq_getElem?, hp]
  · exact Bool.eq_false_iff.2 fun h => replicate_false_ne_outMask hv (initialised_iff.1 h).1

end Sys2Proof.Machine
end

section
/-! PROOFS. The pin space and the Signal Map (20_memory.md): what the masks hold, what a read and a write of a pin or of an
absent signal do, the refusal of contention, and the latches that no command writes. -/

namespace Sys2Proof

/-! ### The masks -/

/-- The direction of an existing signal's pin in `IN_MASK` is the opposite of the signal's own. -/
theorem at_inMask_pin {cfg : Cfg} (hv : valid cfg = true) {g : Signal} (hg : sigExists cfg g = true) :
    (inMask cfg).at (pin cfg g) = !isOutput g := by
  rw [Bool.eq_iff_iff, at_inMask_iff, Bool.not_eq_true']
  constructor
  · rintro ⟨-, h, hh, hin, hp⟩
    rwa [← pin_injective hv hh hg hp]
  · intro hin
    exact ⟨pin_lt_npins hv hg, g, hg, hin, rfl⟩

/-- `JTAG_MIN_MASK` lies in `OUT_MASK`, since adding it to `OUT_MASK` adds nothing. -/
theorem at_outMask_of_at_jtagMinMask {cfg : Cfg} {p : Nat} (h : (jtagMinMask cfg).at p = true) :
    (outMask cfg).at p = true := by
  have hor : ((outMask cfg).or (jtagMinMask cfg)).at p = true := by rw [Levels.at_or (by simp), h, Bool.or_true]
  rwa [outMask_or_jtagMinMask] at hor

/-- The four signals of `JTAG_MIN_MASK` exist under every flag, so in a valid configuration their pins are in range. -/
theorem at_jtagMinMask_iff_of_valid {cfg : Cfg} (hv : valid cfg = true) (p : Nat) :
    (jtagMinMask cfg).at p = true ↔
      (p = pin cfg .tdi ∨ p = pin cfg .tck ∨ p = pin cfg .tms ∨ p = pin cfg .jtagEn) := by
  rw [at_jtagMinMask_iff]
  constructor
  · rintro ⟨-, g, rfl | rfl | rfl | rfl, rfl⟩ <;> simp
  · rintro (rfl | rfl | rfl | rfl) <;> exact ⟨pin_lt_npins hv rfl, _, by simp, rfl⟩

/-- Settles O33: a valid configuration gives each pin one owner, hence one direction. -/
theorem masksOfAValidConfiguration : Obligations.MasksOfAValidConfiguration :=
  fun _ hv => ⟨inMask_outMask_disjoint hv, at_jtagMinMask_iff_of_valid hv,
    fun _ => at_outMask_of_at_jtagMinMask, fun _ hg => ⟨at_outMask_pin hv hg, at_inMask_pin hv hg⟩⟩

/-! ### Pin vectors -/

/-- Writing a pin vector with the level a pin already has changes nothing. -/
theorem Levels.set_at_self (v : Levels) (p : Nat) : v.set p (v.at p) = v :=
  Levels.ext_at (by simp) fun q _ => by
    rw [Levels.at_set]
    split
    case isTrue h => rw [h.1]
    case isFalse => rfl

end Sys2Proof

namespace Sys2Proof.Machine

/-! ### Reads and writes -/

/-- Settles O34: only an existing signal is read, written, or counted in a mask. -/
theorem absentSignalReadsOneIgnoresWrites : Obligations.AbsentSignalReadsOneIgnoresWrites := by
  refine ⟨fun g e v s hg => ⟨sigRead_absent hg, sigWrite_absent hg⟩, fun cfg p hp => ⟨?_, ?_⟩⟩
  · rw [← Bool.not_eq_true, at_outMask_iff]
    exact fun ⟨_, g, hg, _, hgp⟩ => hp g hg hgp
  · rw [← Bool.not_eq_true, at_inMask_iff]
    exact fun ⟨_, g, hg, _, hgp⟩ => hp g hg hgp

/-- Settles O35: a driven pin reads its latch; an undriven one is a sample, which draws a free value where nothing drives it. -/
theorem levelOfAPin : Obligations.LevelOfAPin := by
  refine fun e p s => ⟨memRead_driven, fun v hoe hx => ?_, fun hoe hx => ?_⟩
  · rw [memRead_undriven hoe]
    simp [sampleOf, floats, hx, -List.getD_eq_getElem?_getD]
  · rw [memRead_undriven hoe]
    simp [sampleOf, floats, hx, -List.getD_eq_getElem?_getD]

/-- Settles O36: the write is one write of the latch vector. -/
theorem writeOfAPin : Obligations.WriteOfAPin := by
  refine fun p v s hp => ⟨?_, fun q hq => ?_, rfl, fun h => ?_⟩
  · rw [memWrite_mem, Levels.at_set, if_pos ⟨rfl, hp⟩]
  · rw [memWrite_mem, Levels.at_set, if_neg fun h => hq h.1.symm]
  · rw [memWrite, ← h, Levels.set_at_self]

/-! ### Contention -/

/-- One pin that both CORE and the environment drive is contention. -/
theorem contends_of_driven {oe : Levels} {e : EdgeInput} {p : Nat} {v : Bool} (hoe : oe.at p = true)
    (hx : e.ext.getD p none = some v) : contends oe e = true := by
  have hoe' : oe[p]? = some true := by simpa [Levels.at_eq_getElem?, Option.getD_eq_iff] using hoe
  have hx' : e.ext[p]? = some (some v) := by simpa [Option.getD_eq_iff] using hx
  have hzip : (oe.zip e.ext)[p]? = some (true, some v) := List.getElem?_zip_eq_some.2 ⟨hoe', hx'⟩
  exact List.any_eq_true.2 ⟨_, List.mem_of_getElem? hzip, rfl⟩

/-- At an edge with contention nothing happens, whatever the action. -/
theorem atEdge_contends {s : State} {act : EdgeInput → State → Result} (hv : valid s.cfg = true)
    (hc : contends s.mem.oe (inputAt s 0) = true) : atEdge s act = .refused .contention := by
  simp [atEdge, hv, hc]

/-- Settles O40: every step begins with a clock edge, and every edge with contention is refused. -/
theorem contentionIsRefused : Obligations.ContentionIsRefused := by
  intro s p v hv hoe hx
  obtain ⟨act, h⟩ := step_eq_atEdge s
  exact h.trans (atEdge_contends hv (contends_of_driven hoe hx))

/-! ### The latches no command writes -/

/-- The signal a micro-step writes, if it writes one. -/
def Micro.writes? : Micro → Option Signal
  | .writeCmdBit g _ | .presentBit g | .writeLevel g _ => some g
  | .writeClkcfg _ | .writeBusmode _ | .assignOe | .writeVregctl _ | .orOe | .sampleInto _ _ | .shiftZero
  | .shiftCapture | .settle | .dispatch | .sampleFeedback => none

/-- A `SigWrite` changes no latch but its own signal's. -/
theorem sigWrite_out_at_of_ne {g : Signal} {v : Bool} {s : State} {q : Nat}
    (h : sigExists s.cfg g = true → pin s.cfg g ≠ q) : (sigWrite g v s).mem.out.at q = s.mem.out.at q := by
  by_cases hg : sigExists s.cfg g = true
  · rw [sigWrite_present hg, memWrite_mem, Levels.at_set, if_neg fun hq => h hg hq.1]
  · rw [sigWrite_absent (by simpa using hg)]

/-- A micro-step changes no latch but that of the signal it writes. -/
theorem perform_out_at_of_ne {m : Micro} {e : EdgeInput} {s : State} {q : Nat}
    (h : ∀ g, m.writes? = some g → sigExists s.cfg g = true → pin s.cfg g ≠ q) :
    (perform m e s).mem.out.at q = s.mem.out.at q := by
  cases m with
  | writeCmdBit g k => exact sigWrite_out_at_of_ne (h g rfl)
  | presentBit g => exact sigWrite_out_at_of_ne (h g rfl)
  | writeLevel g v => exact sigWrite_out_at_of_ne (h g rfl)
  | _ => simp [perform]

/-- Every command writes the six signals of the Output State Word only (20_memory.md R57, R61). -/
theorem mem_wordSignals_of_writes {i : Instr} {cfg : Cfg} {m : Micro} (hm : m ∈ programOf i cfg) {g : Signal}
    (hg : m.writes? = some g) : g ∈ wordSignals.map Prod.fst := by
  have hall : ∀ m ∈ programOf i cfg, ∀ g, m.writes? = some g → g ∈ wordSignals.map Prod.fst := by
    cases i with
    | init => simp [programOf, initProgram, Micro.writes?]
    | setout w =>
      cases h1 : cfg.haveAs <;> cases h2 : cfg.haveLed <;>
        simp [programOf, setoutProgram, h1, h2, Micro.writes?, wordSignals]
    | setrd w =>
      cases h1 : cfg.haveAs <;> cases h2 : cfg.haveLed <;>
        simp [programOf, setrdProgram, setoutProgram, h1, h2, Micro.writes?, wordSignals]
    | shout b => simp [programOf, shoutProgram, shoutBit, Micro.writes?, wordSignals]
    | shio b =>
      cases h1 : cfg.haveAs <;> simp [programOf, shioProgram, shioBit, h1, Micro.writes?, wordSignals]
  exact hall m hm g hg

/-- The signal a micro-step of the running command writes is, where it exists, one of the written signals. -/
theorem writes_mem_writtenSignals {w : CmdWord} {cfg : Cfg} {m : Micro} (hm : m ∈ microProgram w cfg) {g : Signal}
    (hg : m.writes? = some g) (hx : sigExists cfg g = true) : ∃ x ∈ writtenSignals cfg, x.1 = g := by
  unfold microProgram at hm
  split at hm
  case h_1 i _ =>
    obtain ⟨x, hmem, rfl⟩ := List.mem_map.1 (mem_wordSignals_of_writes hm hg)
    exact ⟨x, List.mem_filter.2 ⟨hmem, hx⟩, rfl⟩
  case h_2 => cases hm

theorem unwrittenKeepReset_resetOf (cfg : Cfg) (u : PowerOn) : UnwrittenKeepReset (State.resetOf cfg u) :=
  fun p hp _ => (stateAfterReset cfg u).1 p hp

/-- Of the things a clock edge consists of, reset makes the latches `OUT_RESET`, and a micro-step writes others. -/
theorem unwrittenKeepReset_keptAtEveryEdge : KeptAtEveryEdge UnwrittenKeepReset where
  queue _ _ h := h
  reset s _ _ := unwrittenKeepReset_resetOf s.cfg (PowerOn.free s.draws)
  pass _ h := h
  accept _ _ _ h _ _ := h
  micro s m e h _ hm := by
    intro p hp hne
    simp only [advance_cfg, perform_cfg] at hp hne
    have hframe : (perform m e s).mem.out.at p = s.mem.out.at p := perform_out_at_of_ne fun g hg hx => by
      obtain ⟨x, hmem, rfl⟩ := writes_mem_writtenSignals (List.mem_of_getElem? hm) hg hx
      exact hne x hmem
    simpa [hframe] using h p hp hne

theorem cfg_keptAtEveryEdge (cfg : Cfg) : KeptAtEveryEdge fun s => s.cfg = cfg where
  queue _ _ h := h
  reset _ h _ := h
  pass _ h := h
  accept _ _ _ h _ _ := h
  micro _ _ _ h _ _ := by simpa using h

/-- No written signal is bound to JTAG_EN's pin (40_initializer.md R102): JTAG_EN is no bit of the Output State Word. -/
theorem pin_ne_jtagEn_of_mem_writtenSignals {cfg : Cfg} (hv : valid cfg = true) {x : Signal × Nat}
    (hx : x ∈ writtenSignals cfg) : pin cfg x.1 ≠ pin cfg .jtagEn := by
  obtain ⟨hword, hex⟩ := List.mem_filter.1 hx
  intro he
  have hj : x.1 = .jtagEn := pin_injective hv hex rfl he
  have hnot : Signal.jtagEn ∉ wordSignals.map Prod.fst := by decide
  exact hnot (hj ▸ List.mem_map_of_mem hword)

/-- In a valid configuration JTAG_EN's pin is one that no written signal owns. -/
theorem UnwrittenKeepReset.jtagEn {s : State} (h : UnwrittenKeepReset s) (hv : valid s.cfg = true) :
    s.mem.out.at (pin s.cfg .jtagEn) = s.cfg.outReset.at (pin s.cfg .jtagEn) :=
  h _ (pin_lt_npins hv rfl) fun _ hx => pin_ne_jtagEn_of_mem_writtenSignals hv hx

/-- Settles O46: the latches and the configuration are kept at every edge; JTAG_EN's latch is `OUT_RESET` before the step and
after it. -/
theorem unwrittenLatchesKeepOutReset : Obligations.UnwrittenLatchesKeepOutReset := by
  refine ⟨unwrittenKeepReset_resetOf, fun s t hinv hs h => ?_⟩
  have ht : UnwrittenKeepReset t := unwrittenKeepReset_keptAtEveryEdge.of_step hs h
  have hcfg : t.cfg = s.cfg := (cfg_keptAtEveryEdge s.cfg).of_step rfl h
  have hjtag := ht.jtagEn (hcfg ▸ hinv.cfgValid)
  rw [hcfg] at hjtag
  exact ⟨ht, hcfg, fun _ => hjtag.trans (hs.jtagEn hinv.cfgValid).symm⟩

end Sys2Proof.Machine
end

section
/-! PROOFS. Encoding (30_encoding.md): a command word is its operation and data fields, what the decoder answers on those
fields, the canonical word, the assembler, and the refusal of a reserved word. -/

namespace Sys2Proof

/-! ### The fields of a command word -/

theorem opOf_append (op : BitVec 3) (d : Byte) : opOf (op ++ d) = op :=
  BitVec.extractLsb'_append_eq_left

theorem dataOf_append (op : BitVec 3) (d : Byte) : dataOf (op ++ d) = d :=
  BitVec.extractLsb'_append_eq_right

theorem stateWordOf_append (op : BitVec 3) (x : BitVec 2) (v : StateWord) :
    stateWordOf (op ++ (x ++ v)) = v :=
  calc (op ++ (x ++ v)).extractLsb' 0 6
    _ = (x ++ v).extractLsb' 0 6 := BitVec.extractLsb'_append_eq_of_add_le (by decide)
    _ = v := BitVec.extractLsb'_append_eq_right

theorem opOf_append_dataOf (w : CmdWord) : opOf w ++ dataOf w = w :=
  (BitVec.extractLsb'_append_extractLsb'_eq_extractLsb' rfl).trans BitVec.extractLsb'_eq_self

theorem opOf_toNat (w : CmdWord) : (opOf w).toNat = w.toNat / 256 := by
  have hw := w.isLt
  rw [opOf, BitVec.extractLsb'_toNat, Nat.shiftRight_eq_div_pow]
  omega

/-- The Output State Word is the data field with the ignored bits 7 and 6 cleared (30_encoding.md R81). -/
theorem zero_append_stateWordOf (w : CmdWord) : 0b00#2 ++ stateWordOf w = dataOf w &&& 0x3F#8 := by
  have hdata : dataOf w = w.extractLsb' 6 2 ++ stateWordOf w :=
    (BitVec.extractLsb'_append_extractLsb'_eq_extractLsb' (start₁ := 0) (len₁ := 6) (len₂ := 2) rfl).symm
  have hmask : 0x3F#8 = 0b00#2 ++ BitVec.allOnes 6 := rfl
  rw [hdata, hmask, BitVec.and_append, BitVec.and_allOnes, BitVec.and_zero]

/-! ### The decoder -/

theorem decode_init (d : Byte) : decode (0b000#3 ++ d) = .command .init := by
  rw [decode, opOf_append]; rfl

theorem decode_setout (x : BitVec 2) (v : StateWord) : decode (0b001#3 ++ (x ++ v)) = .command (.setout v) := by
  rw [decode, opOf_append, stateWordOf_append]; rfl

theorem decode_setrd (x : BitVec 2) (v : StateWord) : decode (0b010#3 ++ (x ++ v)) = .command (.setrd v) := by
  rw [decode, opOf_append, stateWordOf_append]; rfl

theorem decode_shout (b : Byte) : decode (0b011#3 ++ b) = .command (.shout b) := by
  rw [decode, opOf_append, dataOf_append]; rfl

theorem decode_shio (b : Byte) : decode (0b100#3 ++ b) = .command (.shio b) := by
  rw [decode, opOf_append, dataOf_append]; rfl

theorem exists_command_of_lt {w : CmdWord} (hw : w.toNat < 0x500) : ∃ i, decode w = .command i := by
  have hop := opOf_toNat w
  unfold decode
  split
  case h_6 h0 h1 h2 h3 h4 =>
    simp only [imp_false] at h0 h1 h2 h3 h4
    omega
  all_goals exact ⟨_, rfl⟩

theorem decode_reserved {w : CmdWord} (hw : 0x500 ≤ w.toNat) : decode w = .reservedOp (opOf w) := by
  have hop := opOf_toNat w
  unfold decode
  split
  case h_6 => rfl
  all_goals omega

/-- The words below 0x500, and no others, are commands (30_encoding.md R88, R89). -/
theorem isSome_instr?_decode_iff (w : CmdWord) : (decode w).instr?.isSome = true ↔ w.toNat < 0x500 := by
  by_cases hw : w.toNat < 0x500
  · obtain ⟨i, hi⟩ := exists_command_of_lt hw
    simp [hi, Decoded.instr?, hw]
  · simp [decode_reserved (Nat.not_lt.1 hw), Decoded.instr?, hw]

theorem decodeTableWord_of_lt {n : Nat} (hn : n < 2048) : decodeTableWord 16 n = (decode (BitVec.ofNat 11 n)).instr? := by
  have hmod : n % 65536 = n := by omega
  simp [decodeTableWord, portWord, hmod, hn]

theorem isSome_decodeTableWord_iff {n : Nat} (hn : n < 2048) : (decodeTableWord 16 n).isSome = true ↔ n < 0x500 := by
  rw [decodeTableWord_of_lt hn, isSome_instr?_decode_iff, BitVec.toNat_ofNat, Nat.mod_eq_of_lt hn]

/-- Of the 2048 words the first 1280 are commands and the other 768 are not (30_encoding.md R89). -/
theorem filter_isSome_decodeTableWord :
    (List.range 2048).filter (fun n => (decodeTableWord 16 n).isSome) = List.range 1280 := by
  have hcommand : ∀ n ∈ List.range 1280, (decodeTableWord 16 n).isSome = true := fun n hn => by
    have hlt := List.mem_range.1 hn
    exact (isSome_decodeTableWord_iff (by omega)).2 hlt
  have hreserved : ∀ n ∈ (List.range 768).map (1280 + ·), ¬ (decodeTableWord 16 n).isSome = true := fun n hn => by
    obtain ⟨k, hk, rfl⟩ := List.mem_map.1 hn
    have hlt := List.mem_range.1 hk
    rw [isSome_decodeTableWord_iff (by omega)]
    omega
  rw [show 2048 = 1280 + 768 from rfl, List.range_add, List.filter_append, List.filter_eq_self.2 hcommand,
    List.filter_eq_nil_iff.2 hreserved, List.append_nil]

/-! ### The canonical word -/

/-- The bits of a command's data field that carry meaning (30_encoding.md R81). -/
def meaningfulData : Instr → Byte
  | .init => 0x00#8
  | .setout _ | .setrd _ => 0x3F#8
  | .shout _ | .shio _ => 0xFF#8

/-- All three operation bits carry meaning. -/
theorem meaningfulBits_eq_append (i : Instr) : Machine.meaningfulBits i = BitVec.allOnes 3 ++ meaningfulData i := by
  cases i <;> simp [Machine.meaningfulBits, meaningfulData]

/-- What a word that decodes to a command is: its operation is the command's, and its data field the canonical one where the
ignored bits are 0. -/
theorem fields_of_decode {w : CmdWord} {i : Instr} (h : decode w = .command i) :
    opcode i = opOf w ∧ dataField i = dataOf w &&& meaningfulData i := by
  unfold decode at h
  split at h
  case h_1 hop =>
    cases h
    exact ⟨BitVec.eq_of_toNat_eq hop.symm, BitVec.and_zero.symm⟩
  case h_2 hop | h_3 hop =>
    cases h
    exact ⟨BitVec.eq_of_toNat_eq hop.symm, zero_append_stateWordOf w⟩
  case h_4 hop | h_5 hop =>
    cases h
    exact ⟨BitVec.eq_of_toNat_eq hop.symm, BitVec.and_allOnes.symm⟩
  case h_6 => cases h

/-- The canonical word of a command is any of its words with the ignored bits 0 (30_encoding.md R89). -/
theorem encode_eq_and_of_decode {w : CmdWord} {i : Instr} (h : decode w = .command i) :
    encode i = w &&& Machine.meaningfulBits i := by
  obtain ⟨hop, hdata⟩ := fields_of_decode h
  calc encode i
    _ = opOf w ++ (dataOf w &&& meaningfulData i) := by rw [encode, hop, hdata]
    _ = (opOf w ++ dataOf w) &&& (BitVec.allOnes 3 ++ meaningfulData i) := by
      rw [BitVec.and_append, BitVec.and_allOnes]
    _ = w &&& Machine.meaningfulBits i := by rw [opOf_append_dataOf, ← meaningfulBits_eq_append]

theorem roundTrip (i : Instr) : Laws.RoundTrip.Statement i :=
  match i with
  | .init => Laws.RoundTrip.init
  | .setout v => Laws.RoundTrip.setout v
  | .setrd v => Laws.RoundTrip.setrd v
  | .shout b => Laws.RoundTrip.shout b
  | .shio b => Laws.RoundTrip.shio b

/-- Settles O2: the round trip of each command, and the canonical word as any word of the command, masked. -/
theorem decodeAndEncodeAgree : Obligations.DecodeAndEncodeAgree :=
  ⟨roundTrip, fun _ _ => encode_eq_and_of_decode⟩

/-- Settles O3: the operation field is the word's number divided by 256, so it is below 5 exactly below 0x500. -/
theorem decoderIsTotalOnAllWords : Obligations.DecoderIsTotalOnAllWords :=
  ⟨fun _ => exists_command_of_lt, fun _ => decode_reserved,
    by rw [filter_isSome_decodeTableWord, List.length_range]⟩

theorem encode_toNat (i : Instr) : (encode i).toNat = (opcode i).toNat * 256 + (dataField i).toNat := by
  rw [encode, BitVec.toNat_append, ← Nat.shiftLeft_add_eq_or_of_lt (dataField i).isLt, Nat.shiftLeft_eq]

theorem zero_append_toNat (v : StateWord) : (0b00#2 ++ v).toNat = v.toNat := by
  rw [BitVec.toNat_append]; simp

/-- Settles O1: the decoder on the fields of each command, and the canonical words as numbers. -/
theorem encodingOfEachCommand : Obligations.EncodingOfEachCommand := by
  refine ⟨decode_init, rfl, decode_setout, fun v => ?_, decode_setrd, fun v => ?_, fun b => ⟨decode_shout b, ?_⟩,
    fun b => ⟨decode_shio b, ?_⟩⟩
  · simp only [encode_toNat, opcode, dataField, zero_append_toNat]; rfl
  · simp only [encode_toNat, opcode, dataField, zero_append_toNat]; rfl
  · simp only [encode_toNat, opcode, dataField]; rfl
  · simp only [encode_toNat, opcode, dataField]; rfl

/-- Settles O4: eight of the commands' words with their operands and ignored bits, and the first reserved word. -/
theorem wordsOfTheEncodingTable : Obligations.WordsOfTheEncodingTable :=
  ⟨decode_init 0x00#8, decode_init 0xAB#8, decode_setout 0b00#2 0x2C#6, decode_setout 0b11#2 0x2C#6,
    decode_setrd 0b00#2 0x00#6, decode_setrd 0b00#2 0x3F#6, decode_shout 0xA5#8, decode_shio 0xA5#8,
    decode_reserved (by decide)⟩

/-! ### The assembler -/

theorem instr?_ofInstr (i : Instr) : (AsmLine.ofInstr i).instr? = some i := by
  have hwf : (AsmLine.ofInstr i).wellFormed = true := (roundTrip i).1
  unfold AsmLine.instr?
  rw [if_pos hwf]
  cases i <;> simp [AsmLine.ofInstr]

theorem assemble_ofInstr (i : Instr) : assemble (AsmLine.ofInstr i) = some (encode i) := by
  rw [assemble, instr?_ofInstr, Option.map_some]

/-- A line whose operand is in range is the text of a command (30_encoding.md R91). -/
theorem exists_ofInstr_of_wellFormed {l : AsmLine} (h : l.wellFormed = true) : ∃ i, AsmLine.ofInstr i = l := by
  cases l with
  | init => exact ⟨.init, rfl⟩
  | setout n => exact ⟨.setout (.ofNatLT n (Nat.lt_succ_of_le (of_decide_eq_true h))), rfl⟩
  | setrd n => exact ⟨.setrd (.ofNatLT n (Nat.lt_succ_of_le (of_decide_eq_true h))), rfl⟩
  | shout n => exact ⟨.shout (.ofNatLT n (Nat.lt_succ_of_le (of_decide_eq_true h))), rfl⟩
  | shio n => exact ⟨.shio (.ofNatLT n (Nat.lt_succ_of_le (of_decide_eq_true h))), rfl⟩

/-- Settles O5: a line in range is the text of a command, whose canonical word the assembler emits. -/
theorem assemblerEmitsTheCanonicalWord : Obligations.AssemblerEmitsTheCanonicalWord := by
  refine fun l => ⟨fun h => by simp [assemble, AsmLine.instr?, h], fun h => ?_⟩
  obtain ⟨i, rfl⟩ := exists_ofInstr_of_wellFormed h
  exact ⟨i, rfl, assemble_ofInstr i⟩

end Sys2Proof

namespace Sys2Proof.Machine

/-! ### A reserved word presented -/

theorem step_of_reserved {s : State} {w : CmdWord} {ws : List CmdWord} {op : BitVec 3} (hb : s.busy = false)
    (hw : s.cmds = w :: ws) (hd : decode w = .reservedOp op) : step s = reservedEdge s := by
  simp [step, hb, hw, hd]

/-- Settles O41: an idle CORE takes the word to the clock edge of a reserved word, and a clear one refuses it. -/
theorem reservedWordIsRefused : Obligations.ReservedWordIsRefused := by
  rintro s w ws ⟨hv, -, hb⟩ hw hres hc
  rw [step_of_reserved hb hw (decode_reserved hres)]
  exact atEdge_clear hv hc

end Sys2Proof.Machine
end

section
/-! PROOFS. The Initializer (40_initializer.md): the state after each number of micro-steps of `INIT`, the state it ends in,
and that a second `INIT` changes nothing. -/

namespace Sys2Proof.Machine

/-- The state `n` micro-steps of `INIT` after its acceptance in `u`: the effects of R100 that have happened, and CORE idle
after the fifth. -/
def initMicros (n : Nat) (u : State) : State :=
  { u with
    clkcfg := if 1 ≤ n then 0b11#2 else u.clkcfg
    busmode := if 2 ≤ n then 0b111#3 else u.busmode
    mem := { u.mem with oe := if 3 ≤ n then outMask u.cfg else u.mem.oe }
    vregctl := if 4 ≤ n then 1#1 else u.vregctl
    busy := decide (n < 5)
    upc := if n < 5 then BitVec.ofNat 6 n else 0
    rsp := none
    env := u.env.drop n }

theorem initMicros_upc_toNat {n : Nat} (hn : n < 5) (u : State) : (initMicros n u).upc.toNat = n := by
  have hu : (initMicros n u).upc = BitVec.ofNat 6 n := if_pos hn
  rw [hu, BitVec.toNat_ofNat, Nat.mod_eq_of_lt (by omega)]

/-- The micro-step at position `n` of `INIT`, with its advance, brings about the next effect; the fifth adds no direction
and completes `INIT` without a response (10_state.md R38; 40_initializer.md R100, R101). -/
theorem advance_perform_initMicros {u : State} (hd : decode u.cmd = .command .init) {n : Nat} {m : Micro}
    (hm : initProgram[n]? = some m) (e : EdgeInput) :
    advance initProgram.length (perform m e (passEdge (initMicros n u))) = initMicros (n + 1) u := by
  have henv : u.env.drop (n + 1) = (u.env.drop n).tail := List.tail_drop.symm
  obtain ⟨rfl, rfl⟩ | ⟨rfl, rfl⟩ | ⟨rfl, rfl⟩ | ⟨rfl, rfl⟩ | ⟨rfl, rfl⟩ := initProgram_getElem?_eq_some hm
  · simp only [initMicros, henv]; rfl
  · simp only [initMicros, henv]; rfl
  · simp only [initMicros, henv]; rfl
  · simp only [initMicros, henv]; rfl
  · have hrsp : responseOf (nextUpc (perform .orOe e (passEdge (initMicros 4 u)))) = none := by
      simp [responseOf, initMicros, hd]
    rw [advance_of_last (by rfl), complete, hrsp]
    simp [perform, nextUpc, passEdge, setDirections, initMicros, outMask_or_jtagMinMask]

/-- The clock edges of `INIT` are clear with the directions each of them meets: `OE` is `OUT_MASK` after the third
micro-step (70_reset_and_hazards.md R180). -/
theorem edgeClear_initMicros {s : State} (hc : ClearForInit s) {n : Nat} (hn : n < 5) :
    EdgeClear (initMicros n (accepted .init s)).mem.oe (inputAt (initMicros n (accepted .init s)) 0) := by
  have hin : inputAt (initMicros n (accepted .init s)) 0 = inputAt s (n + 1) := by
    simp [inputAt, initMicros, accepted]
  rw [hin]
  by_cases h3 : 3 ≤ n
  · simpa [initMicros, accepted, h3] using hc.2 (n + 1) (by omega) (by omega)
  · simpa [initMicros, accepted, h3] using hc.1 (n + 1) (by omega)

/-- `INIT` after each number of its micro-steps, by induction on that number. -/
theorem runUpTo_init {s : State} (hv : valid s.cfg = true) (hb : s.busy = false) (hc : ClearForInit s) {n : Nat}
    (hn : n ≤ 5) : runUpTo n .init s = .next (initMicros n (accepted .init s)) := by
  induction n with
  | zero => exact runUpTo_clear hv hb (hc.1 0 (by omega)) rfl 0
  | succ n ih =>
    have hbusy : (initMicros n (accepted .init s)).busy = true := decide_eq_true hn
    have hprog : microProgram (initMicros n (accepted .init s)).cmd (initMicros n (accepted .init s)).cfg =
        initProgram := microProgram_presentedWord .init s _
    obtain ⟨m, hm⟩ : ∃ m, initProgram[n]? = some m := ⟨_, List.getElem?_eq_getElem hn⟩
    have hvalid : valid (initMicros n (accepted .init s)).cfg = true := by simpa [initMicros, accepted] using hv
    have hstep := seqStep_clear hvalid (edgeClear_initMicros hc hn) (m := m)
      (by rw [hprog, initMicros_upc_toNat hn, hm])
    rw [hprog, advance_perform_initMicros (u := accepted .init s) (decode_presentedWord .init s) hm] at hstep
    rw [runUpTo_succ, ih (by omega)]
    exact (if_pos hbusy).trans hstep

/-- The end of `INIT` in the terms of a command's frame. -/
theorem initMicros_five_accepted (s : State) :
    initMicros 5 (accepted .init s) =
      { commandFrame .init s with
        mem := { s.mem with oe := outMask s.cfg }, clkcfg := 0b11#2, busmode := 0b111#3, vregctl := 1#1 } := by
  simp [initMicros, accepted, loadCommand, passEdge, commandFrame, microSteps]

/-- The four values `INIT` writes are those that make CORE Initialised (10_state.md R30). -/
theorem initialised_initMicros_five (u : State) : initialised (initMicros 5 u) = true :=
  initialised_iff.2 ⟨rfl, rfl, rfl, rfl⟩

/-- Settles O13: the fifth micro-step ends `INIT`, and `exec` goes no further. -/
theorem initPostState : Obligations.InitPostState := by
  intro s hv hb hc
  have hexec : exec .init s = .next (initMicros 5 (accepted .init s)) :=
    (exec_eq_runCommand .init s).trans (runUpTo_add_of_idle (runUpTo_init hv hb hc (Nat.le_refl 5)) rfl 36)
  exact ⟨⟨_, hexec, initMicros_five_accepted s, initialised_initMicros_five _⟩, outMask_or_jtagMinMask s.cfg⟩

/-- Settles O14: acceptance writes none of the five registers, and each micro-step brings about the next effect. -/
theorem initEffectsInOrder : Obligations.InitEffectsInOrder := by
  intro s n hv hb hc hn
  exact ⟨_, runUpTo_init hv hb hc hn, by simp [initMicros, accepted]⟩

/-- In an Initialised state the registers already hold what `INIT` writes. -/
theorem persistent_initMicros {u : State} (h : initialised u = true) (n : Nat) :
    persistent (initMicros n u) = persistent u := by
  obtain ⟨hoe, hclk, hbus, hreg⟩ := initialised_iff.1 h
  simp [persistent, initMicros, ← hoe, ← hclk, ← hbus, ← hreg]

/-- Acceptance changes no persistent register (10_state.md R37). -/
theorem persistent_accepted (i : Instr) (s : State) : persistent (accepted i s) = persistent s := by
  simp [persistent, accepted]

theorem initialised_accepted (i : Instr) (s : State) : initialised (accepted i s) = initialised s := by
  simp [initialised, accepted]

/-- A pad's level and direction are those of the pin registers. -/
theorem padLevel_of_persistent {s u : State} (h : persistent u = persistent s) (p : Nat) :
    padLevel u p = padLevel s p := by
  have hmem : u.mem = s.mem := congrArg Prod.fst h
  simp only [padLevel, hmem]

/-- In an Initialised state the directions stay `OUT_MASK` throughout `INIT`. -/
theorem clearForInit_of_initialised {s : State} (h : initialised s = true) (hc : ClearFor 6 s) : ClearForInit s := by
  obtain ⟨hoe, -⟩ := initialised_iff.1 h
  exact ⟨fun k hk => hc k (by omega), fun k _ hk => hoe ▸ hc k hk⟩

/-- Settles O15: acceptance writes no persistent register, and every micro-step writes the value already there. -/
theorem secondInitChangesNothing : Obligations.SecondInitChangesNothing := by
  rintro s n ⟨⟨hv, -, hb⟩, hi⟩ hc hn
  have hsame : persistent (initMicros n (accepted .init s)) = persistent s :=
    (persistent_initMicros ((initialised_accepted .init s).trans hi) n).trans (persistent_accepted .init s)
  exact ⟨_, runUpTo_init hv hb (clearForInit_of_initialised hi hc) hn, hsame, padLevel_of_persistent hsame⟩

end Sys2Proof.Machine
end

section
/-! PROOFS. The State Port (41_state_port.md): the writes of the Output State Word as one change of the latches, the two
samples of `SETRD`, the states `SETOUT` and `SETRD` end in, and their pin events. -/

namespace Sys2Proof.Machine

/-! ### The written signals -/

/-- The micro-step that writes one signal of the Output State Word (R111). -/
def wordWrite (x : Signal × Nat) : Micro := .writeCmdBit x.1 x.2

theorem setoutProgram_eq_map (cfg : Cfg) : setoutProgram cfg = (writtenSignals cfg).map wordWrite := by
  cases h1 : cfg.haveAs <;> cases h2 : cfg.haveLed <;>
    simp [setoutProgram, writtenSignals, wordSignals, sigExists, wordWrite, h1, h2]

/-- `SETOUT` has one micro-step for each written signal (R111, R187). -/
theorem length_writtenSignals (cfg : Cfg) (w : StateWord) :
    (writtenSignals cfg).length = microSteps cfg (.setout w) := by
  rw [← length_programOf, programOf, setoutProgram_eq_map, List.length_map]

theorem sigExists_of_mem_writtenSignals {cfg : Cfg} {x : Signal × Nat} (hx : x ∈ writtenSignals cfg) :
    sigExists cfg x.1 = true :=
  (List.mem_filter.1 hx).2

/-- A written signal's position is one of the six of the Output State Word (R110). -/
theorem lt_six_of_mem_writtenSignals {cfg : Cfg} {x : Signal × Nat} (hx : x ∈ writtenSignals cfg) : x.2 < 6 := by
  have hall : ∀ y ∈ wordSignals, y.2 < 6 := by decide
  exact hall x (List.mem_filter.1 hx).1

/-- In a valid configuration the pin of a written signal fixes the signal and its position. -/
theorem eq_of_pin_eq_of_mem_writtenSignals {cfg : Cfg} (hv : valid cfg = true) {x y : Signal × Nat}
    (hx : x ∈ writtenSignals cfg) (hy : y ∈ writtenSignals cfg) (h : pin cfg x.1 = pin cfg y.1) : x = y := by
  have hone : ∀ a ∈ wordSignals, ∀ b ∈ wordSignals, a.1 = b.1 → a = b := by decide
  exact hone x (List.mem_filter.1 hx).1 y (List.mem_filter.1 hy).1
    (pin_injective hv (sigExists_of_mem_writtenSignals hx) (sigExists_of_mem_writtenSignals hy) h)

/-! ### The operand in `CMD` -/

theorem stateWordOf_of_decode {c : CmdWord} {w : StateWord}
    (h : decode c = .command (.setout w) ∨ decode c = .command (.setrd w)) : stateWordOf c = w := by
  unfold decode at h
  split at h
  case h_2 | h_3 => simpa using h
  all_goals simp at h

@[simp] theorem stateWordOf_presentedWord_setout (w : StateWord) (s : State) :
    stateWordOf (presentedWord (.setout w) s) = w :=
  stateWordOf_of_decode (.inl (decode_presentedWord _ s))

@[simp] theorem stateWordOf_presentedWord_setrd (w : StateWord) (s : State) :
    stateWordOf (presentedWord (.setrd w) s) = w :=
  stateWordOf_of_decode (.inr (decode_presentedWord _ s))

/-- Bits 5 to 0 of `CMD` are the Output State Word (R110). -/
theorem cmdBit_eq_getLsbD_stateWordOf (c : CmdWord) {k : Nat} (hk : k < 6) :
    cmdBit c k = (stateWordOf c).getLsbD k := by
  simp [cmdBit, stateWordOf, hk]

/-! ### The latches after the writes -/

/-- The latches `out` once the signals `xs` have been written, in that order, with their bits of `w`. -/
def wordLatches (cfg : Cfg) (w : StateWord) (xs : List (Signal × Nat)) (out : Levels) : Levels :=
  xs.foldl (fun o x => o.set (pin cfg x.1) (w.getLsbD x.2)) out

@[simp] theorem wordLatches_cons (cfg : Cfg) (w : StateWord) (x : Signal × Nat) (xs : List (Signal × Nat))
    (out : Levels) :
    wordLatches cfg w (x :: xs) out = wordLatches cfg w xs (out.set (pin cfg x.1) (w.getLsbD x.2)) := rfl

@[simp] theorem length_wordLatches (cfg : Cfg) (w : StateWord) (xs : List (Signal × Nat)) (out : Levels) :
    (wordLatches cfg w xs out).length = out.length := by
  induction xs generalizing out with
  | nil => rfl
  | cons x xs ih => simp [ih]

/-- The latch of a pin that is none of the signals' is as it was. -/
theorem wordLatches_at_of_ne {cfg : Cfg} {xs : List (Signal × Nat)} {p : Nat} (hp : ∀ x ∈ xs, pin cfg x.1 ≠ p)
    (w : StateWord) (out : Levels) : (wordLatches cfg w xs out).at p = out.at p := by
  induction xs generalizing out with
  | nil => rfl
  | cons x xs ih =>
    rw [wordLatches_cons, ih fun y hy => hp y (List.mem_cons_of_mem x hy), Levels.at_set,
      if_neg fun h => hp x List.mem_cons_self h.1]

/-- The latch of a written signal is its bit of the word: no later write is to the same pin. -/
theorem wordLatches_at_pin {cfg : Cfg} (hv : valid cfg = true) {xs : List (Signal × Nat)}
    (hxs : xs ⊆ writtenSignals cfg) {x : Signal × Nat} (hx : x ∈ xs) (w : StateWord) {out : Levels}
    (hl : out.length = cfg.npins) : (wordLatches cfg w xs out).at (pin cfg x.1) = w.getLsbD x.2 := by
  induction xs generalizing out with
  | nil => cases hx
  | cons y ys ih =>
    have hys : ys ⊆ writtenSignals cfg := fun z hz => hxs (List.mem_cons_of_mem y hz)
    rw [wordLatches_cons]
    by_cases hmem : x ∈ ys
    · exact ih hys hmem (by simpa using hl)
    · have hxy : x = y := (List.mem_cons.1 hx).resolve_right hmem
      subst hxy
      have hother : ∀ z ∈ ys, pin cfg z.1 ≠ pin cfg x.1 := fun z hz he =>
        hmem (eq_of_pin_eq_of_mem_writtenSignals hv (hys hz) (hxs hx) he ▸ hz)
      have hin : pin cfg x.1 < out.length := hl ▸ pin_lt_npins hv (sigExists_of_mem_writtenSignals (hxs hx))
      rw [wordLatches_at_of_ne hother, Levels.at_set, if_pos ⟨rfl, hin⟩]

/-! ### A ready CORE and the state after acceptance -/

theorem Ready.cfgValid {s : State} (hr : Ready s) : valid s.cfg = true := hr.1.1

theorem Ready.length_out {s : State} (hr : Ready s) : s.mem.out.length = s.cfg.npins := hr.1.2.1.1

/-- A ready CORE drives the pins of `OUT_MASK` (10_state.md R30). -/
theorem Ready.oe_eq {s : State} (hr : Ready s) : s.mem.oe = outMask s.cfg := (initialised_iff.1 hr.2).1

@[simp] theorem accepted_cfg (i : Instr) (s : State) : (accepted i s).cfg = s.cfg := by simp [accepted]

@[simp] theorem accepted_mem (i : Instr) (s : State) : (accepted i s).mem = s.mem := by simp [accepted]

@[simp] theorem accepted_draws (i : Instr) (s : State) : (accepted i s).draws = s.draws := by simp [accepted]

@[simp] theorem accepted_cmd (i : Instr) (s : State) : (accepted i s).cmd = presentedWord i s := rfl

@[simp] theorem accepted_sr (i : Instr) (s : State) : (accepted i s).sr = dataOf (presentedWord i s) := rfl

@[simp] theorem accepted_rsp (i : Instr) (s : State) : (accepted i s).rsp = none := rfl

/-! ### The writes as a stretch of a micro-program -/

/-- The state after the writes of the signals `xs`, one clock edge for each. -/
def afterWrites (xs : List (Signal × Nat)) (s : State) : State :=
  { s with
    mem := { s.mem with out := wordLatches s.cfg (stateWordOf s.cmd) xs s.mem.out }
    upc := s.upc + BitVec.ofNat 6 xs.length
    env := s.env.drop xs.length }

@[simp] theorem afterWrites_cfg (xs : List (Signal × Nat)) (s : State) : (afterWrites xs s).cfg = s.cfg := rfl

@[simp] theorem afterWrites_sr (xs : List (Signal × Nat)) (s : State) : (afterWrites xs s).sr = s.sr := rfl

@[simp] theorem afterWrites_draws (xs : List (Signal × Nat)) (s : State) : (afterWrites xs s).draws = s.draws := rfl

@[simp] theorem afterWrites_mem (xs : List (Signal × Nat)) (s : State) :
    (afterWrites xs s).mem =
      { s.mem with out := wordLatches s.cfg (stateWordOf s.cmd) xs s.mem.out } := rfl

theorem inputAt_afterWrites (xs : List (Signal × Nat)) (s : State) (n : Nat) :
    inputAt (afterWrites xs s) n = inputAt s (xs.length + n) := by
  simp [inputAt, afterWrites]

theorem perform_wordWrite {x : Signal × Nat} {s : State} (hx : x ∈ writtenSignals s.cfg) (e : EdgeInput) :
    perform (wordWrite x) e s = memWrite (pin s.cfg x.1) ((stateWordOf s.cmd).getLsbD x.2) s := by
  rw [wordWrite, perform, sigWrite_present (sigExists_of_mem_writtenSignals hx),
    cmdBit_eq_getLsbD_stateWordOf _ (lt_six_of_mem_writtenSignals hx)]

theorem runMicros_map_wordWrite {xs : List (Signal × Nat)} {s : State} (hxs : xs ⊆ writtenSignals s.cfg)
    (hr : s.rsp = none) : runMicros (xs.map wordWrite) s = afterWrites xs s := by
  induction xs generalizing s with
  | nil => simp [runMicros, afterWrites, wordLatches]
  | cons x xs ih =>
    obtain ⟨hx, hxs'⟩ := List.cons_subset.1 hxs
    have hupc : 1#6 + BitVec.ofNat 6 xs.length = BitVec.ofNat 6 (xs.length + 1) := by
      rw [BitVec.ofNat_add, BitVec.add_comm]
    rw [List.map_cons, runMicros, perform_wordWrite (by simpa using hx), ih (by simpa using hxs') rfl]
    simp [afterWrites, nextUpc, memWrite, passEdge, hr, BitVec.add_assoc, hupc]

/-! ### The samples -/

/-- The level a `SigRead` of an input signal returns, `d` being the number of the next free value: a sample of its pin,
or the constant 1 where the signal is absent (20_memory.md R53, R58). -/
def inputLevel (cfg : Cfg) (e : EdgeInput) (g : Signal) (d : Nat) : Bool :=
  if sigExists cfg g then sampleOf e (pin cfg g) d else true

/-- How many free values a `SigRead` of an input signal draws. -/
def inputDraws (cfg : Cfg) (e : EdgeInput) (g : Signal) : Nat :=
  if sigExists cfg g then floats e (pin cfg g) else 0

/-- With the directions of an Initialised state, CORE drives no input signal's pin. -/
theorem sigRead_input {s : State} (hv : valid s.cfg = true) (ho : s.mem.oe = outMask s.cfg) {g : Signal}
    (hg : isOutput g = false) (e : EdgeInput) :
    sigRead e g s = (inputLevel s.cfg e g s.draws, { s with draws := s.draws + inputDraws s.cfg e g }) := by
  by_cases hx : sigExists s.cfg g = true
  · have hoff : s.mem.oe.at (pin s.cfg g) = false := by rw [ho, at_outMask_pin hv hx, hg]
    rw [sigRead_present hx, memRead_undriven hoff, inputLevel, inputDraws, if_pos hx, if_pos hx]
  · rw [sigRead_absent (by simpa using hx), inputLevel, inputDraws, if_neg hx, if_neg hx]
    rfl

theorem getLsbD_putBit {k : Nat} (hk : k < 8) (v : Bool) (sr : Byte) (j : Nat) :
    (putBit k v sr).getLsbD j = if j = k then v else sr.getLsbD j := by
  by_cases hj : j < 8
  · obtain h | rfl | h := Nat.lt_trichotomy j k
    · simp [putBit, hj, h, h.ne]
    · simp [putBit, hj]
    · have h0 : j - k ≠ 0 := by omega
      simp [putBit, hj, h.ne', h0]
  · rw [if_neg (by omega), BitVec.getLsbD_of_ge _ _ (by omega), BitVec.getLsbD_of_ge _ _ (by omega)]

/-- The two samples stand in bits 1 and 0 of `SR`; bits 7 to 2 are kept (R114). -/
theorem putBit_one_putBit_zero (asdo tdo : Bool) (sr : Byte) :
    putBit 1 asdo (putBit 0 tdo sr) = sr.extractLsb' 2 6 ++ (BitVec.ofBool asdo ++ BitVec.ofBool tdo) := by
  apply BitVec.eq_of_getLsbD_eq
  intro j hj
  rw [getLsbD_putBit (by decide), getLsbD_putBit (by decide), BitVec.getLsbD_append]
  match j with
  | 0 => cases asdo <;> cases tdo <;> rfl
  | 1 => cases asdo <;> cases tdo <;> rfl
  | i + 2 =>
    have hi : i < 6 := by omega
    simp [hi, Nat.add_comm 2]

/-- The response of `SETRD` is the two samples, zero-extended (10_state.md R38). -/
theorem inputWordResponse_append (hi : BitVec 6) (lo : BitVec 2) : inputWordResponse (hi ++ lo) = 0#6 ++ lo := by
  rw [inputWordResponse, BitVec.extractLsb'_append_eq_right, BitVec.setWidth_eq_append (by decide)]
  rfl

theorem extractLsb'_dataOf (c : CmdWord) : (dataOf c).extractLsb' 2 6 = c.extractLsb' 2 6 := by
  simp [dataOf]

/-- The state after one sample of an input signal into bit `k` of `SR`, with its clock edge. -/
def afterSample (g : Signal) (k : Nat) (s : State) : State :=
  { s with
    sr := putBit k (inputLevel s.cfg (inputAt s 0) g s.draws) s.sr
    draws := s.draws + inputDraws s.cfg (inputAt s 0) g
    upc := s.upc + 1
    rsp := none
    env := s.env.tail }

@[simp] theorem afterSample_cfg (g : Signal) (k : Nat) (s : State) : (afterSample g k s).cfg = s.cfg := rfl

@[simp] theorem afterSample_mem (g : Signal) (k : Nat) (s : State) : (afterSample g k s).mem = s.mem := rfl

@[simp] theorem afterSample_sr (g : Signal) (k : Nat) (s : State) :
    (afterSample g k s).sr = putBit k (inputLevel s.cfg (inputAt s 0) g s.draws) s.sr := rfl

@[simp] theorem afterSample_draws (g : Signal) (k : Nat) (s : State) :
    (afterSample g k s).draws = s.draws + inputDraws s.cfg (inputAt s 0) g := rfl

@[simp] theorem inputAt_afterSample (g : Signal) (k : Nat) (s : State) (n : Nat) :
    inputAt (afterSample g k s) n = inputAt s (n + 1) := inputAt_passEdge s n

theorem runMicros_sampleInto {s : State} (hv : valid s.cfg = true) (ho : s.mem.oe = outMask s.cfg) {g : Signal}
    (hg : isOutput g = false) (k : Nat) (ms : List Micro) :
    runMicros (.sampleInto g k :: ms) s = runMicros ms (afterSample g k s) := by
  have hread := sigRead_input (s := passEdge s) hv ho hg (inputAt s 0)
  rw [runMicros, perform, hread]
  rfl

/-! ### SETOUT -/

/-- The first `n` micro-steps of `SETOUT w` are the writes of the first `n` written signals. -/
theorem runMicros_setout (w : StateWord) (s : State) (n : Nat) :
    runMicros ((programOf (.setout w) s.cfg).take n) (accepted (.setout w) s) =
      afterWrites ((writtenSignals s.cfg).take n) (accepted (.setout w) s) := by
  rw [programOf, setoutProgram_eq_map, ← List.map_take,
    runMicros_map_wordWrite (by simpa using List.take_subset n _) (by simp)]

/-- The pin registers after the first `n` micro-steps of a command other than `INIT`, the last one among them. -/
theorem runUpTo_mem {i : Instr} (hi : i ≠ .init) {s : State} (hr : Ready s) (hc : ClearRun i s) {n : Nat}
    (hn : n ≤ microSteps s.cfg i) :
    ∃ u, runUpTo n i s = .next u ∧ u.mem = (runMicros ((programOf i s.cfg).take n) (accepted i s)).mem := by
  obtain hlt | rfl := Nat.lt_or_eq_of_le hn
  · exact ⟨_, (runUpTo_partial hi hr hc hlt).1, rfl⟩
  · exact ⟨_, runUpTo_whole hi hr hc 0, by rw [← length_programOf, List.take_length]; rfl⟩

/-- Settles O18: the first `n` writes are those of the first `n` written signals. -/
theorem setoutPinsChangeOneAtATime : Obligations.SetoutPinsChangeOneAtATime := by
  intro w s n hr hc hn
  obtain ⟨u, hu, hmem⟩ := runUpTo_mem (by simp) hr hc hn
  have hmem' : u.mem = { s.mem with out := wordLatches s.cfg w ((writtenSignals s.cfg).take n) s.mem.out } := by
    simpa [runMicros_setout] using hmem
  exact ⟨length_writtenSignals s.cfg w, u, hu, by rw [hmem'],
    fun x hx => hmem' ▸ wordLatches_at_pin hr.cfgValid (List.take_subset n _) hx w hr.length_out,
    fun p hp => hmem' ▸ wordLatches_at_of_ne hp w _⟩

/-- The state in which `SETOUT w` ends. -/
def afterSetout (w : StateWord) (s : State) : State :=
  { commandFrame (.setout w) s with
    mem := { s.mem with out := wordLatches s.cfg w (writtenSignals s.cfg) s.mem.out } }

@[simp] theorem afterSetout_cfg (w : StateWord) (s : State) : (afterSetout w s).cfg = s.cfg := by
  simp [afterSetout, commandFrame]

@[simp] theorem afterSetout_clkcfg (w : StateWord) (s : State) : (afterSetout w s).clkcfg = s.clkcfg := by
  simp [afterSetout, commandFrame]

@[simp] theorem afterSetout_busmode (w : StateWord) (s : State) : (afterSetout w s).busmode = s.busmode := by
  simp [afterSetout, commandFrame]

@[simp] theorem afterSetout_vregctl (w : StateWord) (s : State) : (afterSetout w s).vregctl = s.vregctl := by
  simp [afterSetout, commandFrame]

@[simp] theorem afterSetout_cmd (w : StateWord) (s : State) :
    (afterSetout w s).cmd = presentedWord (.setout w) s := rfl

@[simp] theorem afterSetout_mem (w : StateWord) (s : State) :
    (afterSetout w s).mem = { s.mem with out := wordLatches s.cfg w (writtenSignals s.cfg) s.mem.out } := rfl

theorem exec_setout {w : StateWord} {s : State} (hr : Ready s) (hc : ClearRun (.setout w) s) :
    exec (.setout w) s = .next (afterSetout w s) := by
  have hmicros := runMicros_setout w s (microSteps s.cfg (.setout w))
  rw [← length_programOf, List.take_length, length_programOf, ← length_writtenSignals, List.take_length] at hmicros
  have hrsp : responseOf (afterWrites (writtenSignals s.cfg) (accepted (.setout w) s)) = none :=
    responseOf_eq_none (by simp [afterWrites]) (by simp [afterWrites])
  rw [exec_clear (by simp) hr hc, hmicros, complete, hrsp]
  simp [afterSetout, afterWrites, accepted, loadCommand, commandFrame, passEdge,
    ← length_writtenSignals s.cfg w, Nat.add_comm]

/-- All written signals of a ready CORE written: each at its bit of the word, and no other latch changed (R111). -/
theorem wordLatches_of_ready {s : State} (hr : Ready s) (w : StateWord) :
    (wordLatches s.cfg w (writtenSignals s.cfg) s.mem.out).length = s.cfg.npins ∧
      (∀ x ∈ writtenSignals s.cfg,
        (wordLatches s.cfg w (writtenSignals s.cfg) s.mem.out).at (pin s.cfg x.1) = w.getLsbD x.2) ∧
      ∀ p, (∀ x ∈ writtenSignals s.cfg, pin s.cfg x.1 ≠ p) →
        (wordLatches s.cfg w (writtenSignals s.cfg) s.mem.out).at p = s.mem.out.at p :=
  ⟨(length_wordLatches ..).trans hr.length_out,
    fun _ hx => wordLatches_at_pin hr.cfgValid (List.Subset.refl _) hx w hr.length_out,
    fun _ hp => wordLatches_at_of_ne hp w _⟩

/-- Settles O17: each existing signal of the word has been written once, and nothing else. -/
theorem setoutWritesTheOutputWord : Obligations.SetoutWritesTheOutputWord :=
  fun w _ hr hc => ⟨_, exec_setout hr hc, wordLatches_of_ready hr w⟩

/-- The second word's writes leave nothing of the first's: both write the same pins. -/
theorem wordLatches_overwrite {cfg : Cfg} (hv : valid cfg = true) (w1 w2 : StateWord) {out : Levels}
    (hl : out.length = cfg.npins) :
    wordLatches cfg w2 (writtenSignals cfg) (wordLatches cfg w1 (writtenSignals cfg) out) =
      wordLatches cfg w2 (writtenSignals cfg) out := by
  refine Levels.ext_at (by simp) fun p _ => ?_
  by_cases hp : ∀ x ∈ writtenSignals cfg, pin cfg x.1 ≠ p
  · simp only [wordLatches_at_of_ne hp]
  · push Not at hp
    obtain ⟨x, hx, rfl⟩ := hp
    rw [wordLatches_at_pin hv (List.Subset.refl _) hx w2 (by simpa using hl),
      wordLatches_at_pin hv (List.Subset.refl _) hx w2 hl]

/-- CORE is ready again after `SETOUT`: it has written latches only. -/
theorem ready_afterSetout {s : State} (hr : Ready s) (w : StateWord) : Ready (afterSetout w s) := by
  obtain ⟨⟨hv, ⟨hout, hoe⟩, -⟩, hi⟩ := hr
  exact ⟨⟨by simpa using hv, ⟨by simpa using hout, by simpa using hoe⟩, rfl⟩, by simpa [initialised] using hi⟩

theorem inputAt_afterSetout (w : StateWord) (s : State) (k : Nat) :
    inputAt (afterSetout w s) k = inputAt s (1 + microSteps s.cfg (.setout w) + k) := by
  simp [inputAt, afterSetout, commandFrame]

/-- Bits 5 to 0 of `SR` keep the word, as acceptance has loaded it. -/
theorem stateWord_sr_afterSetout (w : StateWord) (s : State) : (afterSetout w s).sr.extractLsb' 0 6 = w := by
  have hword := stateWordOf_presentedWord_setout w s
  simpa [stateWordOf, afterSetout, commandFrame, dataOf] using hword

/-- Clear edges for two `SETOUT`s are clear for the first and, after it, for the second. -/
theorem clearRun_setout_twice {s : State} {w1 w2 : StateWord}
    (hc : ClearFor (2 * (1 + microSteps s.cfg (.setout w2))) s) :
    (∀ w, ClearRun (.setout w) s) ∧ ClearRun (.setout w2) (afterSetout w1 s) := by
  have hsame : ∀ w, microSteps s.cfg (.setout w) = microSteps s.cfg (.setout w2) := fun _ => rfl
  refine ⟨fun w k hk => hc k (by rw [hsame] at hk; omega), fun k hk => ?_⟩
  rw [afterSetout_cfg] at hk
  rw [inputAt_afterSetout, hsame, afterSetout_mem]
  exact hc _ (by omega)

/-- Settles O19: the second word overwrites every latch of the first, and acceptance every transient register. -/
theorem setoutOverwrites : Obligations.SetoutOverwrites := by
  intro w1 w2 s hr hc
  obtain ⟨hfirst, hsecond⟩ := clearRun_setout_twice (w1 := w1) hc
  have hlatches := wordLatches_overwrite hr.cfgValid w1 w2 hr.length_out
  refine ⟨_, _, _, exec_setout hr (hfirst w1), exec_setout (ready_afterSetout hr w1) hsecond,
    exec_setout hr (hfirst w2), ?_, ?_, ?_, ?_, stateWord_sr_afterSetout w2 _⟩
  · simp [persistent, hlatches]
  · simp [afterSetout, commandFrame, hlatches]
  · simp
  · rw [stateWord_sr_afterSetout, stateWord_sr_afterSetout]

/-! ### SETRD -/

/-- The level `SETRD w` samples from TDO, at the clock edge after the last write (R114). -/
def sampledTdo (w : StateWord) (s : State) : Bool :=
  inputLevel s.cfg (inputAt s (1 + microSteps s.cfg (.setout w))) .tdo s.draws

/-- The level it samples from ASDO at the next clock edge, after the free values TDO has drawn. -/
def sampledAsdo (w : StateWord) (s : State) : Bool :=
  inputLevel s.cfg (inputAt s (2 + microSteps s.cfg (.setout w))) .asdo
    (s.draws + inputDraws s.cfg (inputAt s (1 + microSteps s.cfg (.setout w))) .tdo)

/-- The state in which the micro-steps of `SETRD w` end, before its completion. -/
def setrdMicros (w : StateWord) (s : State) : State :=
  afterSample .asdo 1 (afterSample .tdo 0 (afterWrites (writtenSignals s.cfg) (accepted (.setrd w) s)))

/-- The state in which `SETRD w` ends. -/
def afterSetrd (w : StateWord) (s : State) : State :=
  { commandFrame (.setrd w) s with
    mem := { s.mem with out := wordLatches s.cfg w (writtenSignals s.cfg) s.mem.out }
    sr := (presentedWord (.setrd w) s).extractLsb' 2 6 ++
      (BitVec.ofBool (sampledAsdo w s) ++ BitVec.ofBool (sampledTdo w s))
    rsp := some (0#6 ++ (BitVec.ofBool (sampledAsdo w s) ++ BitVec.ofBool (sampledTdo w s)))
    draws := s.draws + inputDraws s.cfg (inputAt s (1 + microSteps s.cfg (.setout w))) .tdo +
      inputDraws s.cfg (inputAt s (2 + microSteps s.cfg (.setout w))) .asdo }

theorem runMicros_setrd {s : State} (hr : Ready s) (w : StateWord) :
    runMicros (programOf (.setrd w) s.cfg) (accepted (.setrd w) s) = setrdMicros w s := by
  rw [programOf, setrdProgram, setoutProgram_eq_map, runMicros_append,
    runMicros_map_wordWrite (by simp) (by simp),
    runMicros_sampleInto (by simpa using hr.cfgValid) (by simpa using hr.oe_eq) rfl,
    runMicros_sampleInto (by simpa using hr.cfgValid) (by simpa using hr.oe_eq) rfl]
  rfl

theorem inputAt_writes_accepted (i : Instr) (w : StateWord) (s : State) (k : Nat) :
    inputAt (afterWrites (writtenSignals s.cfg) (accepted i s)) k =
      inputAt s (k + 1 + microSteps s.cfg (.setout w)) := by
  rw [inputAt_afterWrites, inputAt_accepted, length_writtenSignals s.cfg w]
  congr 1
  omega

theorem sr_setrdMicros (w : StateWord) (s : State) :
    (setrdMicros w s).sr = (presentedWord (.setrd w) s).extractLsb' 2 6 ++
      (BitVec.ofBool (sampledAsdo w s) ++ BitVec.ofBool (sampledTdo w s)) := by
  rw [← extractLsb'_dataOf, ← putBit_one_putBit_zero]
  simp [setrdMicros, sampledTdo, sampledAsdo, inputAt_writes_accepted _ w]

theorem draws_setrdMicros (w : StateWord) (s : State) :
    (setrdMicros w s).draws = s.draws + inputDraws s.cfg (inputAt s (1 + microSteps s.cfg (.setout w))) .tdo +
      inputDraws s.cfg (inputAt s (2 + microSteps s.cfg (.setout w))) .asdo := by
  simp [setrdMicros, inputAt_writes_accepted _ w]

/-- `SETRD` has the micro-steps of `SETOUT` and two samples (R114, R187). -/
theorem microSteps_setrd (cfg : Cfg) (w : StateWord) :
    microSteps cfg (.setrd w) = microSteps cfg (.setout w) + 2 := by
  simp only [microSteps]; omega

theorem exec_setrd {w : StateWord} {s : State} (hr : Ready s) (hc : ClearRun (.setrd w) s) :
    exec (.setrd w) s = .next (afterSetrd w s) := by
  have hedges : 1 + microSteps s.cfg (.setrd w) = (writtenSignals s.cfg).length + 1 + 1 + 1 := by
    rw [microSteps_setrd, length_writtenSignals s.cfg w]; omega
  have hd : decode (setrdMicros w s).cmd = .command (.setrd w) := decode_presentedWord (.setrd w) s
  rw [exec_clear (by simp) hr hc, runMicros_setrd hr, complete, responseOf_setrd hd, sr_setrdMicros,
    inputWordResponse_append, draws_setrdMicros]
  simp [afterSetrd, setrdMicros, afterWrites, afterSample, accepted, loadCommand, commandFrame, passEdge, hedges]

/-- Settles O20: the writes are those of `SETOUT w`; each sample is of a pin that CORE does not drive, or absent. -/
theorem setrdWritesThenSamples : Obligations.SetrdWritesThenSamples :=
  fun w s hr hc => ⟨_, sampledTdo w s, sampledAsdo w s, rfl, rfl, exec_setrd hr hc, wordLatches_of_ready hr w⟩

/-! ### The trace of a command -/

/-- The pin events of a list of micro-steps, performed at successive clock edges as `runMicros` performs them. -/
def microEvents : List Micro → State → List PinEvent
  | [], _ => []
  | m :: ms, s =>
    (eventOf m (inputAt s 0) (passEdge s)).toList ++ microEvents ms (nextUpc (perform m (inputAt s 0) (passEdge s)))

theorem microEvents_append (a b : List Micro) (s : State) :
    microEvents (a ++ b) s = microEvents a s ++ microEvents b (runMicros a s) := by
  induction a generalizing s with
  | nil => rfl
  | cons m ms ih => simp [microEvents, runMicros, ih]

theorem traceFrom_idle {s : State} (hb : s.busy = false) (n : Nat) : traceFrom n s = [] := by
  cases n <;> simp [traceFrom, hb]

/-- The event of one micro-step at a clear edge, then those of the rest. -/
theorem traceFrom_succ_clear {s : State} {m : Micro} (hb : s.busy = true) (hv : valid s.cfg = true)
    (hc : EdgeClear s.mem.oe (inputAt s 0)) (hm : (microProgram s.cmd s.cfg)[s.upc.toNat]? = some m) (n : Nat) :
    traceFrom (n + 1) s = (eventOf m (inputAt s 0) (passEdge s)).toList ++
      traceFrom n (advance (microProgram s.cmd s.cfg).length (perform m (inputAt s 0) (passEdge s))) := by
  simp [traceFrom, hb, seqStep_clear hv hc hm, nextEvent, hc.1, hm]

/-- The clock edges after that of one micro-step that writes no direction. -/
theorem clearFor_after_micro {s : State} {m : Micro} (hm : m ≠ .assignOe ∧ m ≠ .orOe) {n : Nat}
    (hc : ClearFor (n + 1) s) : ClearFor n (nextUpc (perform m (inputAt s 0) (passEdge s))) := by
  intro k hk
  have hedge := hc (k + 1) (by omega)
  simpa [inputAt, perform_oe hm.1 hm.2, List.getD_eq_getElem?_getD] using hedge

/-- The events of the rest of a micro-program under clear edges, to completion, by induction on that rest. -/
theorem traceFrom_rest {ms pre : List Micro} {s : State} (hb : s.busy = true) (hv : valid s.cfg = true)
    (hp : microProgram s.cmd s.cfg = pre ++ ms) (hu : s.upc.toNat = pre.length) (hne : ms ≠ [])
    (hk : KeepsDirections ms) (hc : ClearFor ms.length s) (n : Nat) :
    traceFrom (ms.length + n) s = microEvents ms s := by
  induction ms generalizing s pre with
  | nil => exact absurd rfl hne
  | cons m ms ih =>
    have hm : (microProgram s.cmd s.cfg)[s.upc.toNat]? = some m := by simp [hp, hu]
    have hup := (upc_succ_of_micro hm).2
    have hlen : (microProgram s.cmd s.cfg).length = pre.length + (ms.length + 1) := by simp [hp]
    rw [List.length_cons, Nat.add_right_comm, traceFrom_succ_clear hb hv (hc 0 (by simp)) hm, microEvents]
    congr 1
    by_cases hlast : ms = []
    · subst hlast
      rw [advance_of_last (by simpa [hlen, hu] using hup), traceFrom_idle rfl]
      rfl
    · have hpos := List.length_pos_of_ne_nil hlast
      rw [advance_of_not_last (by simp only [perform_upc, passEdge_upc]; omega)]
      exact ih (pre := pre ++ [m]) (by simpa using hb) (by simpa using hv) (by simpa using hp)
        (by simpa [hu] using hup) hlast (fun x hx => hk x (List.mem_cons_of_mem m hx))
        (clearFor_after_micro (hk m List.mem_cons_self) hc)

/-- The trace of a command other than `INIT` under clear edges. -/
theorem commandTrace_clear {i : Instr} (hi : i ≠ .init) {s : State} (hr : Ready s) (hc : ClearRun i s) :
    commandTrace i s = microEvents (programOf i s.cfg) (accepted i s) := by
  have hc' := clearRun_of_ne_init hi hc
  have hlen := length_programOf i s.cfg
  have hle := microSteps_le_longest s.cfg i
  obtain ⟨⟨hv, -, hb⟩, hin⟩ := hr
  have haccept : runUpTo 0 i s = .next (accepted i s) :=
    runUpTo_clear hv hb (hc' 0 (by omega)) (admitted_of_initialised hin) 0
  have hrest := traceFrom_rest (ms := programOf i s.cfg) (pre := []) (s := accepted i s) rfl (by simpa using hv)
    (by simp) rfl (List.ne_nil_of_length_pos (hlen ▸ microSteps_pos s.cfg i)) (keepsDirections_programOf hi s.cfg)
    (hlen ▸ clearFor_accepted hc') (longestProgram - microSteps s.cfg i)
  rw [hlen, Nat.add_sub_cancel' hle] at hrest
  rw [commandTrace, haccept]
  exact hrest

/-! ### The pin events of the State Port -/

/-- The writes of the Output State Word as pin events, in the order of R111. -/
def writeEvents (cfg : Cfg) (w : StateWord) : List PinEvent :=
  (writtenSignals cfg).map fun x => .write x.1 (w.getLsbD x.2)

theorem microEvents_map_wordWrite {xs : List (Signal × Nat)} {s : State} (hxs : xs ⊆ writtenSignals s.cfg) :
    microEvents (xs.map wordWrite) s = xs.map fun x => .write x.1 ((stateWordOf s.cmd).getLsbD x.2) := by
  induction xs generalizing s with
  | nil => rfl
  | cons x xs ih =>
    obtain ⟨hx, hxs'⟩ := List.cons_subset.1 hxs
    have hevent : eventOf (wordWrite x) (inputAt s 0) (passEdge s) =
        some (.write x.1 ((stateWordOf s.cmd).getLsbD x.2)) := by
      simp [wordWrite, eventOf, writeEvent, sigExists_of_mem_writtenSignals hx,
        cmdBit_eq_getLsbD_stateWordOf _ (lt_six_of_mem_writtenSignals hx)]
    rw [List.map_cons, microEvents, hevent, ih (by simpa using hxs')]
    simp

/-- The event of one sample of an input signal. -/
theorem microEvents_sampleInto {s : State} (hv : valid s.cfg = true) (ho : s.mem.oe = outMask s.cfg) {g : Signal}
    (hg : isOutput g = false) (k : Nat) (ms : List Micro) :
    microEvents (.sampleInto g k :: ms) s =
      (if sigExists s.cfg g then .read g (inputLevel s.cfg (inputAt s 0) g s.draws) else .readConst g) ::
        microEvents ms (afterSample g k s) := by
  have hread := sigRead_input (s := passEdge s) hv ho hg (inputAt s 0)
  have hevent : eventOf (.sampleInto g k) (inputAt s 0) (passEdge s) =
      some (if sigExists s.cfg g then .read g (inputLevel s.cfg (inputAt s 0) g s.draws) else .readConst g) := by
    rw [eventOf, readEvent, hread]
    exact (apply_ite some _ _ _).symm
  rw [microEvents, hevent, perform, hread]
  rfl

/-- Where ASDO is absent its sample is the constant 1 (20_memory.md R53). -/
theorem sampledAsdo_absent {w : StateWord} {s : State} (h : sigExists s.cfg .asdo = false) : sampledAsdo w s = true :=
  if_neg (by simp [h])

theorem commandTrace_setout {w : StateWord} {s : State} (hr : Ready s) (hc : ClearRun (.setout w) s) :
    commandTrace (.setout w) s = writeEvents s.cfg w := by
  rw [commandTrace_clear (by simp) hr hc, programOf, setoutProgram_eq_map, microEvents_map_wordWrite (by simp)]
  simp [writeEvents]

theorem commandTrace_setrd {w : StateWord} {s : State} (hr : Ready s) (hc : ClearRun (.setrd w) s) :
    commandTrace (.setrd w) s = writeEvents s.cfg w ++
      [.read .tdo (sampledTdo w s),
        if sigExists s.cfg .asdo then .read .asdo (sampledAsdo w s) else .readConst .asdo] := by
  rw [commandTrace_clear (by simp) hr hc, programOf, setrdProgram, setoutProgram_eq_map, microEvents_append,
    microEvents_map_wordWrite (by simp), runMicros_map_wordWrite (by simp) (by simp),
    microEvents_sampleInto (by simpa using hr.cfgValid) (by simpa using hr.oe_eq) rfl,
    microEvents_sampleInto (by simpa using hr.cfgValid) (by simpa using hr.oe_eq) rfl, microEvents]
  have htdo : sigExists s.cfg .tdo = true := rfl
  simp [writeEvents, sampledTdo, sampledAsdo, inputAt_writes_accepted _ w, htdo]

/-- Settles O21: each micro-step of the two commands has one event; the response of `SETRD` holds the levels sampled. -/
theorem statePortPinEvents : Obligations.StatePortPinEvents := by
  intro w s hr hc
  have hsetout : ClearRun (.setout w) s := fun k hk => hc k (by rw [microSteps_setrd]; omega)
  refine ⟨commandTrace_setout hr hsetout, sampledTdo w s, sampledAsdo w s, commandTrace_setrd hr hc, _,
    exec_setrd hr hc, ?_⟩
  have hconst : (if sigExists s.cfg .asdo then sampledAsdo w s else true) = sampledAsdo w s := by
    split
    case isTrue => rfl
    case isFalse h => exact (sampledAsdo_absent (by simpa using h)).symm
  exact congrArg (fun b => some (0#6 ++ (BitVec.ofBool b ++ BitVec.ofBool (sampledTdo w s)))) hconst.symm

end Sys2Proof.Machine
end

section
/-! PROOFS. The Shift Engine (42_shift_engine.md): the registers a shift command changes, closed under its micro-steps; their
values after each micro-step of each iteration; the states `SHOUT` and `SHIO` end in, their pin events and clock edges. -/

namespace Sys2Proof.Machine

/-! ### Iterations of a micro-program -/

/-- A repeated stretch of micro-steps, each repetition leading from one state of a family to the next. -/
theorem runMicros_iterations {bit : List Micro} {S : Nat → State} {K : Nat}
    (h : ∀ k, k < K → runMicros bit (S k) = S (k + 1)) {k : Nat} (hk : k ≤ K) :
    runMicros (List.replicate k bit).flatten (S 0) = S k := by
  induction k with
  | zero => rfl
  | succ k ih =>
    rw [List.replicate_succ', List.flatten_append, runMicros_append, ih (by omega), List.flatten_singleton, h k hk]

/-- The pin events of a repeated stretch are those of its repetitions, in order. -/
theorem microEvents_iterations {bit : List Micro} {S : Nat → State} {E : Nat → List PinEvent} {K : Nat}
    (h : ∀ k, k < K → runMicros bit (S k) = S (k + 1)) (hE : ∀ k, k < K → microEvents bit (S k) = E k) {k : Nat}
    (hk : k ≤ K) : microEvents (List.replicate k bit).flatten (S 0) = (List.range k).flatMap E := by
  induction k with
  | zero => rfl
  | succ k ih =>
    rw [List.replicate_succ', List.flatten_append, microEvents_append, ih (by omega), List.flatten_singleton,
      runMicros_iterations h (by omega), hE k hk, List.range_succ, List.flatMap_append, List.flatMap_singleton]

/-- The front of a repeated stretch: whole repetitions, then the front of one more. -/
theorem take_flatten_replicate (bit rest : List Micro) {k K j : Nat} (hk : k < K) (hj : j ≤ bit.length) :
    ((List.replicate K bit).flatten ++ rest).take (bit.length * k + j) =
      (List.replicate k bit).flatten ++ bit.take j := by
  obtain ⟨n, rfl⟩ := Nat.exists_eq_add_of_lt hk
  have hlen : (List.replicate k bit).flatten.length = bit.length * k := by simp [Nat.mul_comm]
  rw [Nat.add_assoc, List.replicate_add, List.replicate_succ, List.flatten_append, List.flatten_cons,
    List.append_assoc, List.append_assoc, ← hlen, List.take_length_add_append, List.take_append_of_le_length hj]

/-! ### The registers of a shift -/

/-- What a shift command changes beside `upc` and the outside's script: the latches of TDI and TCK, `SR`, `C`, and the count
of free values drawn. -/
structure ShiftRegs where
  tdi : Bool
  tck : Bool
  sr : Byte
  c : Bool
  draws : Nat

/-- The latches `out` with those of TDI and TCK as in `r`. -/
def shiftLatches (cfg : Cfg) (r : ShiftRegs) (out : Levels) : Levels :=
  (out.set (pin cfg .tdi) r.tdi).set (pin cfg .tck) r.tck

theorem tdi_ne_tck {cfg : Cfg} (hv : valid cfg = true) : pin cfg .tdi ≠ pin cfg .tck := fun h =>
  absurd (pin_injective hv rfl rfl h) (by decide)

/-- In a ready CORE the two latches are those of the registers, and no other latch is changed. -/
theorem shiftLatches_of_ready {s : State} (hr : Ready s) (r : ShiftRegs) :
    (shiftLatches s.cfg r s.mem.out).length = s.cfg.npins ∧
      (shiftLatches s.cfg r s.mem.out).at (pin s.cfg .tdi) = r.tdi ∧
      (shiftLatches s.cfg r s.mem.out).at (pin s.cfg .tck) = r.tck ∧
      ∀ p, p ≠ pin s.cfg .tdi → p ≠ pin s.cfg .tck → (shiftLatches s.cfg r s.mem.out).at p = s.mem.out.at p := by
  have hl := hr.length_out
  have htdi : pin s.cfg .tdi < s.cfg.npins := pin_lt_npins hr.cfgValid rfl
  have htck : pin s.cfg .tck < s.cfg.npins := pin_lt_npins hr.cfgValid rfl
  refine ⟨by simpa [shiftLatches] using hl, ?_, ?_, fun p hp hp' => ?_⟩
  · simp [shiftLatches, Levels.at_set, (tdi_ne_tck hr.cfgValid).symm, hl, htdi]
  · simp [shiftLatches, Levels.at_set, hl, htck]
  · simp [shiftLatches, Levels.at_set, hp.symm, hp'.symm]

/-- The state `n` micro-steps after `u`, the registers of a shift being `r`. -/
def withShift (n : Nat) (r : ShiftRegs) (u : State) : State :=
  { u with
    mem := { u.mem with out := shiftLatches u.cfg r u.mem.out }
    sr := r.sr
    c := r.c
    draws := r.draws
    upc := u.upc + BitVec.ofNat 6 n
    env := u.env.drop n
    rsp := none }

/-- The registers of a shift as they stand in `u`. -/
def shiftRegsOf (u : State) : ShiftRegs :=
  { tdi := u.mem.out.at (pin u.cfg .tdi), tck := u.mem.out.at (pin u.cfg .tck), sr := u.sr, c := u.c, draws := u.draws }

/-- No micro-step done, no register changed. -/
theorem withShift_zero {u : State} (h : u.rsp = none) : withShift 0 (shiftRegsOf u) u = u := by
  simp [withShift, shiftLatches, shiftRegsOf, Levels.set_at_self, ← h]

@[simp] theorem withShift_mem (n : Nat) (r : ShiftRegs) (u : State) :
    (withShift n r u).mem = { u.mem with out := shiftLatches u.cfg r u.mem.out } := rfl

@[simp] theorem inputAt_withShift (n : Nat) (r : ShiftRegs) (u : State) (k : Nat) :
    inputAt (withShift n r u) k = inputAt u (n + k) := by
  simp [inputAt, withShift]

/-- The next micro-step's `upc` and edge. -/
theorem nextUpc_passEdge_withShift (n : Nat) (r : ShiftRegs) (u : State) :
    nextUpc (passEdge (withShift n r u)) = withShift (n + 1) r u := by
  simp [nextUpc, passEdge, withShift, BitVec.ofNat_add, BitVec.add_assoc]

/-! ### The micro-steps of a shift on its registers -/

section
variable {n : Nat} {r : ShiftRegs} {u : State}

/-- Present: TDI takes bit 0 of `SR` (R121, R125). -/
theorem runMicros_presentBit (hv : valid u.cfg = true) (ms : List Micro) :
    runMicros (.presentBit .tdi :: ms) (withShift n r u) =
      runMicros ms (withShift (n + 1) { r with tdi := r.sr.getLsbD 0 } u) := by
  rw [← nextUpc_passEdge_withShift, runMicros, perform, sigWrite_present rfl]
  simp [memWrite, nextUpc, passEdge, withShift, shiftLatches, List.set_comm _ _ (tdi_ne_tck hv).symm]

/-- Raise or lower: TCK takes the level. -/
theorem runMicros_writeLevel (v : Bool) (ms : List Micro) :
    runMicros (.writeLevel .tck v :: ms) (withShift n r u) = runMicros ms (withShift (n + 1) { r with tck := v } u) := by
  rw [← nextUpc_passEdge_withShift, runMicros, perform, sigWrite_present rfl]
  simp [memWrite, nextUpc, passEdge, withShift, shiftLatches]

/-- Shift: `SR` moves down by one, `C` entering at bit 7, which for `SHOUT` is 0 (R121, R125, R131). -/
theorem runMicros_shift {m : Micro} (hm : m = .shiftCapture ∨ m = .shiftZero ∧ r.c = false) (ms : List Micro) :
    runMicros (m :: ms) (withShift n r u) =
      runMicros ms (withShift (n + 1) { r with sr := shiftIn r.c r.sr } u) := by
  rw [← nextUpc_passEdge_withShift, runMicros]
  obtain rfl | ⟨rfl, hc⟩ := hm
  · rfl
  · change runMicros ms (nextUpc { passEdge (withShift n r u) with sr := shiftIn false r.sr }) = _
    rw [← hc]
    rfl

/-- The registers after a sample of the feedback signal `FBSEL` selects (R125). -/
def sampledRegs (n : Nat) (r : ShiftRegs) (u : State) : ShiftRegs :=
  { r with
    c := inputLevel u.cfg (inputAt u n) (feedbackSignal u.fbsel) r.draws
    draws := r.draws + inputDraws u.cfg (inputAt u n) (feedbackSignal u.fbsel) }

theorem isOutput_feedbackSignal (fbsel : Bool) : isOutput (feedbackSignal fbsel) = false := by cases fbsel <;> rfl

/-- The feedback signal is an input, which CORE does not drive. -/
theorem sigRead_feedbackSignal (hv : valid u.cfg = true) (ho : u.mem.oe = outMask u.cfg) :
    sigRead (inputAt (withShift n r u) 0) (feedbackSignal (withShift n r u).fbsel) (passEdge (withShift n r u)) =
      ((sampledRegs n r u).c, { passEdge (withShift n r u) with draws := (sampledRegs n r u).draws }) := by
  rw [inputAt_withShift]
  exact sigRead_input (s := passEdge (withShift n r u)) hv ho (isOutput_feedbackSignal u.fbsel) (inputAt u n)

theorem runMicros_sampleFeedback (hv : valid u.cfg = true) (ho : u.mem.oe = outMask u.cfg) (ms : List Micro) :
    runMicros (.sampleFeedback :: ms) (withShift n r u) = runMicros ms (withShift (n + 1) (sampledRegs n r u) u) := by
  rw [← nextUpc_passEdge_withShift, runMicros, perform]
  exact congrArg (fun x => runMicros ms (nextUpc { x.2 with c := x.1 })) (sigRead_feedbackSignal hv ho)

theorem microEvents_sampleFeedback (hv : valid u.cfg = true) (ho : u.mem.oe = outMask u.cfg)
    (hx : sigExists u.cfg (feedbackSignal u.fbsel) = true) (ms : List Micro) :
    microEvents (.sampleFeedback :: ms) (withShift n r u) =
      .read (feedbackSignal u.fbsel) (sampledRegs n r u).c ::
        microEvents ms (withShift (n + 1) (sampledRegs n r u) u) := by
  have hread := sigRead_feedbackSignal (n := n) (r := r) hv ho
  have hevent : eventOf .sampleFeedback (inputAt (withShift n r u) 0) (passEdge (withShift n r u)) =
      some (.read (feedbackSignal u.fbsel) (sampledRegs n r u).c) :=
    (if_pos hx).trans (congrArg (fun x : Bool × State => some (PinEvent.read (feedbackSignal u.fbsel) x.1)) hread)
  rw [← nextUpc_passEdge_withShift, microEvents, hevent, perform]
  exact congrArg (fun x => _ :: microEvents ms (nextUpc { x.2 with c := x.1 })) hread

end

/-! ### The registers after each micro-step of an iteration -/

theorem getLsbD_shiftIn (v : Bool) (sr : Byte) {m : Nat} (hm : m < 8) :
    (shiftIn v sr).getLsbD m = if m < 7 then sr.getLsbD (m + 1) else v := by
  rw [shiftIn, BitVec.getLsbD_append]
  by_cases h : m < 7
  · simp [h, Nat.add_comm]
  · have h7 : m = 7 := by omega
    simp [h7]

/-- `SR` once it has been shifted `n` times, starting from `b`, bit `x i` entering at shift `i` (R131). -/
def shiftedByte (b : Byte) (x : Nat → Bool) : Nat → Byte
  | 0 => b
  | n + 1 => shiftIn (x n) (shiftedByte b x n)

/-- Below stand the bits of `b` not yet shifted out, above them the bits that have entered. -/
theorem getLsbD_shiftedByte (b : Byte) (x : Nat → Bool) (n : Nat) {m : Nat} (hm : m < 8) :
    (shiftedByte b x n).getLsbD m = if m + n < 8 then b.getLsbD (m + n) else x (m + n - 8) := by
  induction n generalizing m with
  | zero => simp [shiftedByte, hm]
  | succ n ih =>
    rw [shiftedByte, getLsbD_shiftIn _ _ hm]
    by_cases h : m < 7
    · rw [if_pos h, ih (by omega), Nat.add_right_comm, Nat.add_assoc]
    · have h7 : m = 7 := by omega
      rw [if_neg h, if_neg (by omega), h7]
      congr 1
      omega

/-- The last of the first `n` values of `x`, or `old` where there is none yet. -/
def latest (x : Nat → Bool) (old : Bool) : Nat → Bool
  | 0 => old
  | n + 1 => x n

/-- The registers of a shift after `j` of the five micro-steps sample, present, raise, shift, lower of iteration `k`: `r` are
those before the first iteration, `x` the sampled bits, `draws` the count of free values drawn by the number of samples. -/
def shiftRegs (r : ShiftRegs) (x : Nat → Bool) (draws : Nat → Nat) (k j : Nat) : ShiftRegs :=
  { tdi := latest r.sr.getLsbD r.tdi (if 2 ≤ j then k + 1 else k)
    tck := if j = 3 ∨ j = 4 then true else if j = 5 then false else decide (k = 0) && r.tck
    sr := shiftedByte r.sr x (if 4 ≤ j then k + 1 else k)
    c := latest x r.c (if 1 ≤ j then k + 1 else k)
    draws := draws (if 1 ≤ j then k + 1 else k) }

/-- Before the first iteration no register has changed. -/
theorem shiftRegs_zero_zero {r : ShiftRegs} (x : Nat → Bool) {draws : Nat → Nat} (hd : draws 0 = r.draws) :
    shiftRegs r x draws 0 0 = r := by
  simp [shiftRegs, latest, shiftedByte, hd]

/-- The end of an iteration is the start of the next. -/
theorem shiftRegs_five (r : ShiftRegs) (x : Nat → Bool) (draws : Nat → Nat) (k : Nat) :
    shiftRegs r x draws k 5 = shiftRegs r x draws (k + 1) 0 := by
  simp [shiftRegs]

/-- Bit 0 of `SR`, shifted `k` times, is the bit that iteration `k` presents. -/
theorem shiftRegs_sr_zero (r : ShiftRegs) (x : Nat → Bool) (draws : Nat → Nat) {k j : Nat} (hk : k < 8) (hj : j < 4) :
    (shiftRegs r x draws k j).sr.getLsbD 0 = r.sr.getLsbD k := by
  simp only [shiftRegs, if_neg hj.not_ge, getLsbD_shiftedByte r.sr x k (show 0 < 8 by decide), Nat.zero_add, if_pos hk]

/-- The four micro-steps both shift commands repeat: present, raise, shift, lower. -/
def shiftBit (m : Micro) : List Micro := [.presentBit .tdi, .writeLevel .tck true, m, .writeLevel .tck false]

theorem shoutBit_eq : shoutBit = shiftBit .shiftZero := rfl

theorem shioBit_eq : shioBit = .sampleFeedback :: shiftBit .shiftCapture := rfl

section
variable {r : ShiftRegs} {x : Nat → Bool} {draws : Nat → Nat} {u : State} {k : Nat}

theorem runMicros_presentBit_shiftRegs (hv : valid u.cfg = true) (hk : k < 8) (n : Nat) (ms : List Micro) :
    runMicros (.presentBit .tdi :: ms) (withShift n (shiftRegs r x draws k 1) u) =
      runMicros ms (withShift (n + 1) (shiftRegs r x draws k 2) u) := by
  rw [runMicros_presentBit hv, shiftRegs_sr_zero r x draws hk (by decide)]
  simp [shiftRegs, latest]

theorem runMicros_raise_shiftRegs (n : Nat) (ms : List Micro) :
    runMicros (.writeLevel .tck true :: ms) (withShift n (shiftRegs r x draws k 2) u) =
      runMicros ms (withShift (n + 1) (shiftRegs r x draws k 3) u) := by
  rw [runMicros_writeLevel]
  simp [shiftRegs]

/-- Shift: the bit that enters is sample `k`. -/
theorem runMicros_shift_shiftRegs {m : Micro} (hm : m = .shiftCapture ∨ m = .shiftZero ∧ x = fun _ => false) (n : Nat)
    (ms : List Micro) :
    runMicros (m :: ms) (withShift n (shiftRegs r x draws k 3) u) =
      runMicros ms (withShift (n + 1) (shiftRegs r x draws k 4) u) := by
  rw [runMicros_shift (hm.imp_right fun h => ⟨h.1, by simp [shiftRegs, latest, h.2]⟩)]
  simp [shiftRegs, latest, shiftedByte]

theorem runMicros_lower_shiftRegs (n : Nat) (ms : List Micro) :
    runMicros (.writeLevel .tck false :: ms) (withShift n (shiftRegs r x draws k 4) u) =
      runMicros ms (withShift (n + 1) (shiftRegs r x draws k 5) u) := by
  rw [runMicros_writeLevel]
  simp [shiftRegs]

/-- The first `i` of the four micro-steps of iteration `k`. -/
theorem runMicros_take_shiftBit {m : Micro} (hv : valid u.cfg = true)
    (hm : m = .shiftCapture ∨ m = .shiftZero ∧ x = fun _ => false) (hk : k < 8) {i : Nat} (hi : i ≤ 4) (n : Nat) :
    runMicros ((shiftBit m).take i) (withShift n (shiftRegs r x draws k 1) u) =
      withShift (n + i) (shiftRegs r x draws k (i + 1)) u := by
  have h1 := runMicros_presentBit_shiftRegs (r := r) (x := x) (draws := draws) hv hk n
  have h2 := runMicros_raise_shiftRegs (r := r) (x := x) (draws := draws) (u := u) (k := k) (n + 1)
  have h3 := runMicros_shift_shiftRegs (r := r) (draws := draws) (u := u) (k := k) hm (n + 2)
  have h4 := runMicros_lower_shiftRegs (r := r) (x := x) (draws := draws) (u := u) (k := k) (n + 3)
  match i with
  | 0 => rfl
  | 1 => exact h1 _
  | 2 => exact (h1 _).trans (h2 _)
  | 3 => exact ((h1 _).trans (h2 _)).trans (h3 _)
  | 4 => exact (((h1 _).trans (h2 _)).trans (h3 _)).trans (h4 _)

end

/-- The pin events of the four micro-steps (R121, R125). -/
theorem microEvents_shiftBit {m : Micro} (hm : m = .shiftCapture ∨ m = .shiftZero) (s : State) :
    microEvents (shiftBit m) s = [.write .tdi (s.sr.getLsbD 0), .write .tck true, .write .tck false] := by
  obtain rfl | rfl := hm <;> simp [shiftBit, microEvents, eventOf, writeEvent, sigExists]

/-! ### The state after acceptance of a shift command -/

/-- In format B the data field of the accepted word is the Shift Byte, all its bits meaningful (30_encoding.md R81). -/
theorem dataOf_presentedWord {i : Instr} (h : meaningfulData i = 0xFF#8) (s : State) :
    dataOf (presentedWord i s) = dataField i := by
  have hdata := (fields_of_decode (decode_presentedWord i s)).2
  rw [h] at hdata
  exact (hdata.trans BitVec.and_allOnes).symm

/-- The registers of a shift of `b` right after its acceptance in `s` (10_state.md R37). -/
def startRegs (b : Byte) (s : State) : ShiftRegs :=
  { tdi := s.mem.out.at (pin s.cfg .tdi), tck := s.mem.out.at (pin s.cfg .tck), sr := b, c := false, draws := s.draws }

theorem shiftRegsOf_accepted {i : Instr} (h : meaningfulData i = 0xFF#8) (s : State) :
    shiftRegsOf (accepted i s) = startRegs (dataField i) s := by
  have hc : (accepted i s).c = false := rfl
  simp [shiftRegsOf, startRegs, dataOf_presentedWord h, hc]

/-! ### SHOUT -/

/-- The registers of `SHOUT b` after `i` of the four micro-steps of iteration `k`: only zeros enter `SR`, and without a
sample nothing is drawn (R121). -/
def shoutRegs (b : Byte) (s : State) (k i : Nat) : ShiftRegs :=
  shiftRegs (startRegs b s) (fun _ => false) (fun _ => s.draws) k (i + 1)

theorem shoutRegs_zero_zero (b : Byte) (s : State) : shoutRegs b s 0 0 = startRegs b s := by
  simp [shoutRegs, shiftRegs, startRegs, latest, shiftedByte]

theorem shoutRegs_four (b : Byte) (s : State) (k : Nat) : shoutRegs b s k 4 = shoutRegs b s (k + 1) 0 := by
  simp [shoutRegs, shiftRegs, latest]

/-- The registers in which `SHOUT b` ends: all bits of `b` have left `SR` (R122). -/
theorem shoutRegs_eight_zero (b : Byte) (s : State) :
    shoutRegs b s 8 0 = { tdi := b.getLsbD 7, tck := false, sr := 0x00#8, c := false, draws := s.draws } := by
  have hsr : shiftedByte b (fun _ => false) 8 = 0x00#8 := BitVec.eq_of_getLsbD_eq fun m hm => by
    rw [getLsbD_shiftedByte b _ 8 hm, if_neg (by omega), BitVec.getLsbD_zero]
  simp [shoutRegs, shiftRegs, startRegs, latest, hsr]

/-- The state of `SHOUT b` after `i` of the four micro-steps of iteration `k`. -/
def shoutState (b : Byte) (s : State) (k i : Nat) : State :=
  withShift (4 * k + i) (shoutRegs b s k i) (accepted (.shout b) s)

theorem shoutState_zero_zero (b : Byte) (s : State) : shoutState b s 0 0 = accepted (.shout b) s := by
  have hstart : shoutRegs b s 0 0 = shiftRegsOf (accepted (.shout b) s) :=
    (shoutRegs_zero_zero b s).trans (shiftRegsOf_accepted (i := .shout b) rfl s).symm
  rw [shoutState, hstart]
  exact withShift_zero rfl

theorem microEvents_shoutBit (b : Byte) (s : State) {k : Nat} (hk : k < 8) :
    microEvents shoutBit (shoutState b s k 0) = [.write .tdi (b.getLsbD k), .write .tck true, .write .tck false] := by
  have hbit : (shoutState b s k 0).sr.getLsbD 0 = b.getLsbD k :=
    shiftRegs_sr_zero (startRegs b s) (fun _ => false) (fun _ => s.draws) hk (j := 1) (by decide)
  rw [shoutBit_eq, microEvents_shiftBit (.inr rfl), hbit]

section
variable {s : State} (hr : Ready s) (b : Byte)
include hr

theorem runMicros_take_shoutBit {k i : Nat} (hk : k < 8) (hi : i ≤ 4) :
    runMicros (shoutBit.take i) (shoutState b s k 0) = shoutState b s k i :=
  runMicros_take_shiftBit (by simpa using hr.cfgValid) (.inr ⟨rfl, rfl⟩) hk hi (4 * k)

theorem runMicros_shoutBit (k : Nat) (hk : k < 8) :
    runMicros shoutBit (shoutState b s k 0) = shoutState b s (k + 1) 0 := by
  have hlast : shoutState b s k 4 = shoutState b s (k + 1) 0 := by rw [shoutState, shoutRegs_four]; rfl
  exact (runMicros_take_shoutBit hr b hk (Nat.le_refl 4)).trans hlast

theorem runMicros_shoutBits {k : Nat} (hk : k ≤ 8) :
    runMicros (List.replicate k shoutBit).flatten (accepted (.shout b) s) = shoutState b s k 0 := by
  rw [← shoutState_zero_zero]
  exact runMicros_iterations (S := fun k => shoutState b s k 0) (runMicros_shoutBit hr b) hk

/-- `SHOUT b` in iteration `k`. -/
theorem runMicros_take_shout {k i : Nat} (hk : k < 8) (hi : i ≤ 4) :
    runMicros (shoutProgram.take (4 * k + i)) (accepted (.shout b) s) = shoutState b s k i := by
  have htake := take_flatten_replicate shoutBit [.settle] hk hi
  rw [shoutProgram, show 4 = shoutBit.length from rfl, htake, runMicros_append, runMicros_shoutBits hr b hk.le,
    runMicros_take_shoutBit hr b hk hi]

/-- `SHOUT b` after its eight iterations and the settle step. -/
theorem runMicros_shout :
    runMicros shoutProgram (accepted (.shout b) s) = withShift 33 (shoutRegs b s 8 0) (accepted (.shout b) s) := by
  rw [shoutProgram, runMicros_append, runMicros_shoutBits hr b (Nat.le_refl 8)]
  exact nextUpc_passEdge_withShift ..

/-- The latches of TDI and TCK after `n` micro-steps of `SHOUT b`. -/
theorem runMicros_shout_regs {n : Nat} (h1 : 1 ≤ n) (h33 : n ≤ 33) :
    ∃ r, runMicros (shoutProgram.take n) (accepted (.shout b) s) = withShift n r (accepted (.shout b) s) ∧
      r.tdi = b.getLsbD ((min n 32 - 1) / 4) ∧
      r.tck = if n = 1 then s.mem.out.at (pin s.cfg .tck) else decide (n % 4 = 2 ∨ n % 4 = 3) := by
  obtain rfl | hn : n = 33 ∨ n ≤ 32 := by omega
  · exact ⟨_, runMicros_shout hr b, by simp [shoutRegs_eight_zero]⟩
  · obtain ⟨k, i, hk, hi, rfl⟩ : ∃ k i, k < 8 ∧ i < 4 ∧ n = 4 * k + (i + 1) :=
      ⟨(n - 1) / 4, (n - 1) % 4, by omega, by omega, by omega⟩
    have hbit : (min (4 * k + (i + 1)) 32 - 1) / 4 = k := by omega
    refine ⟨_, runMicros_take_shout hr b hk hi, ?_, ?_⟩
    · simp [shoutRegs, shiftRegs, startRegs, latest, hbit]
    · match i with
      | 0 => cases k <;> simp [shoutRegs, shiftRegs, startRegs]
      | 1 => simp [shoutRegs, shiftRegs, startRegs]
      | 2 => simp [shoutRegs, shiftRegs, startRegs]
      | 3 => simp [shoutRegs, shiftRegs, startRegs]

end

/-- Settles O22: after eight iterations `SR` is 0, bit 7 stands on TDI and the clock is low; `SHOUT` has no response. -/
theorem shoutResult : Obligations.ShoutResult := by
  intro b s hr hc
  have hrsp : responseOf (runMicros shoutProgram (accepted (.shout b) s)) = none :=
    responseOf_eq_none (by simp) (by simp)
  refine ⟨_, ?_, shiftLatches_of_ready hr
    { tdi := b.getLsbD 7, tck := false, sr := 0x00#8, c := false, draws := s.draws }⟩
  rw [exec_clear (by simp) hr hc, programOf, complete, hrsp, runMicros_shout hr, shoutRegs_eight_zero]
  simp [withShift, accepted, loadCommand, commandFrame, passEdge, microSteps]

/-- Settles O23: in iteration `k` TDI has bit `k` from the first micro-step on, and TCK is high after the second and third. -/
theorem shoutPinsAtEachMicroStep : Obligations.ShoutPinsAtEachMicroStep := by
  intro b s n hr hc h1 h33
  obtain ⟨r, hrun, htdi, htck⟩ := runMicros_shout_regs hr b h1 h33
  obtain ⟨u, hu, hmem⟩ := runUpTo_mem (by simp) hr hc h33
  have hmem' : u.mem = { s.mem with out := shiftLatches s.cfg r s.mem.out } := by
    simpa [programOf, hrun] using hmem
  obtain ⟨-, hout⟩ := shiftLatches_of_ready hr r
  rw [htdi, htck] at hout
  exact ⟨u, hu, by rw [hmem'], hmem' ▸ hout⟩

/-- Settles O24: each iteration writes TDI once and TCK twice; the settle step touches no pin. -/
theorem shoutPinEvents : Obligations.ShoutPinEvents := by
  intro b s hr hc
  have hbits := microEvents_iterations (S := fun k => shoutState b s k 0) (runMicros_shoutBit hr b)
    (fun _ => microEvents_shoutBit b s) (Nat.le_refl 8)
  rw [shoutState_zero_zero] at hbits
  rw [commandTrace_clear (by simp) hr hc, programOf, shoutProgram, microEvents_append, hbits]
  exact List.append_nil _

/-! ### The dispatch and the selected feedback signal -/

/-- With the directions of an Initialised state, an output signal reads as its latch (20_memory.md R58). -/
theorem sigRead_output {s : State} (hv : valid s.cfg = true) (ho : s.mem.oe = outMask s.cfg) {g : Signal}
    (hx : sigExists s.cfg g = true) (hg : isOutput g = true) (e : EdgeInput) :
    sigRead e g s = (s.mem.out.at (pin s.cfg g), s) := by
  rw [sigRead_present hx, memRead_driven (by rw [ho, at_outMask_pin hv hx, hg])]

/-- The selection is ASDO with AS-mode and nCS low, else TDO; either exists (43_mode_dispatcher.md R142, R145). -/
theorem sigExists_selectedFeedback (s : State) : sigExists s.cfg (selectedFeedback s) = true := by
  unfold selectedFeedback
  split
  case isTrue h =>
    obtain ⟨has, -⟩ := (Bool.and_eq_true _ _).mp h
    simp [sigExists, has]
  case isFalse => rfl

/-- `FBSEL` holds the selection. -/
theorem feedbackSignal_selectedFeedback (s : State) :
    feedbackSignal (decide (selectedFeedback s = .asdo)) = selectedFeedback s := by
  unfold selectedFeedback
  split <;> rfl

/-- The micro-steps of `SHIO` before its iterations (43_mode_dispatcher.md R140, R141). -/
def dispatchMicros (cfg : Cfg) : List Micro := if cfg.haveAs then [.dispatch] else []

theorem shioProgram_eq (cfg : Cfg) :
    shioProgram cfg = dispatchMicros cfg ++ (List.replicate 8 shioBit).flatten := rfl

theorem length_dispatchMicros (cfg : Cfg) : (dispatchMicros cfg).length = cfg.haveAs.toNat := by
  cases h : cfg.haveAs <;> simp [dispatchMicros, h]

/-- The state of `SHIO b` when its iterations begin: the feedback is selected. -/
def dispatched (b : Byte) (s : State) : State :=
  { accepted (.shio b) s with
    fbsel := decide (selectedFeedback s = .asdo)
    upc := BitVec.ofNat 6 s.cfg.haveAs.toNat
    env := s.env.drop (1 + s.cfg.haveAs.toNat) }

@[simp] theorem dispatched_cfg (b : Byte) (s : State) : (dispatched b s).cfg = s.cfg := accepted_cfg _ s

@[simp] theorem dispatched_mem (b : Byte) (s : State) : (dispatched b s).mem = s.mem := accepted_mem _ s

theorem inputAt_dispatched (b : Byte) (s : State) (k : Nat) :
    inputAt (dispatched b s) k = inputAt s (1 + s.cfg.haveAs.toNat + k) := by
  simp [inputAt, dispatched]

theorem shiftRegsOf_dispatched (b : Byte) (s : State) : shiftRegsOf (dispatched b s) = startRegs b s :=
  shiftRegsOf_accepted (i := .shio b) rfl s

section
variable {s : State} (hr : Ready s) (b : Byte)
include hr

/-- The read of nCS after acceptance returns its latch: CORE drives the pin. -/
theorem sigRead_ncs_accepted (has : s.cfg.haveAs = true) (e : EdgeInput) :
    sigRead e .ncs (passEdge (accepted (.shio b) s)) =
      (s.mem.out.at (pin s.cfg .ncs), passEdge (accepted (.shio b) s)) := by
  have hread := sigRead_output (s := passEdge (accepted (.shio b) s)) (by simpa using hr.cfgValid)
    (by simpa using hr.oe_eq) (g := .ncs) (by simpa [sigExists] using has) rfl e
  simpa using hread

/-- The dispatch selects the feedback signal; without AS-mode acceptance has selected TDO. -/
theorem runMicros_dispatchMicros : runMicros (dispatchMicros s.cfg) (accepted (.shio b) s) = dispatched b s := by
  cases has : s.cfg.haveAs with
  | false =>
    simp [dispatchMicros, runMicros, dispatched, selectedFeedback, has, accepted, loadCommand, passEdge]
  | true =>
    have hsel : fbselOf (s.mem.out.at (pin s.cfg .ncs)) = decide (selectedFeedback s = .asdo) := by
      cases h : s.mem.out.at (pin s.cfg .ncs) <;> simp [fbselOf, selectedFeedback, has, h]
    simp only [dispatchMicros, has, if_true, runMicros, perform, sigRead_ncs_accepted hr b has, hsel]
    have henv : s.env.drop 2 = s.env.tail.tail := by rw [← List.tail_drop, List.drop_one]
    simp [dispatched, nextUpc, accepted, loadCommand, passEdge, has, henv]

/-- The dispatch is one read of nCS, with AS-mode only (43_mode_dispatcher.md R140, R141, R143). -/
theorem microEvents_dispatchMicros :
    microEvents (dispatchMicros s.cfg) (accepted (.shio b) s) =
      if s.cfg.haveAs then [.read .ncs (s.mem.out.at (pin s.cfg .ncs))] else [] := by
  cases has : s.cfg.haveAs with
  | false => simp [dispatchMicros, microEvents, has]
  | true => simp [dispatchMicros, microEvents, eventOf, readEvent, sigExists, has, sigRead_ncs_accepted hr b has]

end

/-! ### SHIO -/

/-- The count of free values drawn once `SHIO` has taken `k` samples. -/
def sampleDraws (s : State) (k : Nat) : Nat :=
  s.draws + ((List.range k).map fun j =>
    floats (inputAt s (sampleEdge s.cfg j)) (pin s.cfg (selectedFeedback s))).sum

theorem sampleDraws_succ (s : State) (k : Nat) :
    sampleDraws s (k + 1) =
      sampleDraws s k + floats (inputAt s (sampleEdge s.cfg k)) (pin s.cfg (selectedFeedback s)) := by
  simp [sampleDraws, List.range_succ, Nat.add_assoc]

theorem shioSample_eq (s : State) (k : Nat) :
    shioSample s k =
      sampleOf (inputAt s (sampleEdge s.cfg k)) (pin s.cfg (selectedFeedback s)) (sampleDraws s k) := rfl

/-- The registers of `SHIO b` after `j` micro-steps of iteration `k`. -/
def shioRegs (b : Byte) (s : State) (k j : Nat) : ShiftRegs :=
  shiftRegs (startRegs b s) (shioSample s) (sampleDraws s) k j

/-- `SR` holds the eight samples at the end (R126). -/
def shioByte (b : Byte) (s : State) : Byte := shiftedByte b (shioSample s) 8

theorem getLsbD_shioByte (b : Byte) (s : State) {k : Nat} (hk : k < 8) :
    (shioByte b s).getLsbD k = shioSample s k := by
  rw [shioByte, getLsbD_shiftedByte b _ 8 hk, if_neg (by omega), Nat.add_sub_cancel]

/-- The registers in which `SHIO b` ends. -/
theorem shioRegs_seven_five (b : Byte) (s : State) :
    shioRegs b s 7 5 =
      { tdi := b.getLsbD 7, tck := false, sr := shioByte b s, c := shioSample s 7, draws := sampleDraws s 8 } := by
  simp [shioRegs, shiftRegs, startRegs, latest, shioByte]

/-- The state of `SHIO b` after `j` micro-steps of iteration `k`. -/
def shioState (b : Byte) (s : State) (k j : Nat) : State :=
  withShift (5 * k + j) (shioRegs b s k j) (dispatched b s)

@[simp] theorem shioState_mem (b : Byte) (s : State) (k j : Nat) :
    (shioState b s k j).mem = { s.mem with out := shiftLatches s.cfg (shioRegs b s k j) s.mem.out } := by
  simp [shioState]

@[simp] theorem shioState_clkcfg (b : Byte) (s : State) (k j : Nat) : (shioState b s k j).clkcfg = s.clkcfg := by
  simp [shioState, withShift, dispatched, accepted]

@[simp] theorem shioState_busmode (b : Byte) (s : State) (k j : Nat) : (shioState b s k j).busmode = s.busmode := by
  simp [shioState, withShift, dispatched, accepted]

@[simp] theorem shioState_vregctl (b : Byte) (s : State) (k j : Nat) : (shioState b s k j).vregctl = s.vregctl := by
  simp [shioState, withShift, dispatched, accepted]

theorem shioState_zero_zero (b : Byte) (s : State) : shioState b s 0 0 = dispatched b s := by
  rw [shioState, shioRegs, shiftRegs_zero_zero _ rfl, ← shiftRegsOf_dispatched]
  exact withShift_zero rfl

theorem inputAt_shioState (b : Byte) (s : State) (k : Nat) :
    inputAt (shioState b s k 0) 0 = inputAt s (sampleEdge s.cfg k) :=
  (inputAt_withShift ..).trans (inputAt_dispatched ..)

/-- The sample of iteration `k` is `shioSample s k`. -/
theorem sampledRegs_shioRegs (b : Byte) (s : State) (k : Nat) :
    sampledRegs (5 * k) (shioRegs b s k 0) (dispatched b s) = shioRegs b s k 1 := by
  have hfb : feedbackSignal (dispatched b s).fbsel = selectedFeedback s := feedbackSignal_selectedFeedback s
  have hd : (shioRegs b s k 0).draws = sampleDraws s k := rfl
  have hlevel : (sampledRegs (5 * k) (shioRegs b s k 0) (dispatched b s)).c = shioSample s k := by
    rw [sampledRegs, hfb, hd, inputAt_dispatched, dispatched_cfg]
    exact if_pos (sigExists_selectedFeedback s)
  have hdraws : (sampledRegs (5 * k) (shioRegs b s k 0) (dispatched b s)).draws = sampleDraws s (k + 1) := by
    rw [sampledRegs, hfb, hd, inputAt_dispatched, dispatched_cfg, sampleDraws_succ]
    exact congrArg _ (if_pos (sigExists_selectedFeedback s))
  calc sampledRegs (5 * k) (shioRegs b s k 0) (dispatched b s)
      = { shioRegs b s k 0 with c := shioSample s k, draws := sampleDraws s (k + 1) } := by
        rw [← hlevel, ← hdraws]; rfl
    _ = shioRegs b s k 1 := by simp [shioRegs, shiftRegs, latest]

section
variable {s : State} (hr : Ready s) (b : Byte)
include hr

theorem runMicros_take_shioBit {k j : Nat} (hk : k < 8) (hj : j ≤ 5) :
    runMicros (shioBit.take j) (shioState b s k 0) = shioState b s k j := by
  have hv : valid (dispatched b s).cfg = true := by simpa using hr.cfgValid
  have ho : (dispatched b s).mem.oe = outMask (dispatched b s).cfg := by simpa using hr.oe_eq
  match j with
  | 0 => rfl
  | i + 1 =>
    rw [shioBit_eq, List.take_succ_cons, shioState, Nat.add_zero, runMicros_sampleFeedback hv ho, sampledRegs_shioRegs,
      shioRegs, runMicros_take_shiftBit hv (.inl rfl) hk (by omega), shioState, shioRegs, Nat.add_assoc,
      Nat.add_comm 1 i]

theorem runMicros_shioBit (k : Nat) (hk : k < 8) :
    runMicros shioBit (shioState b s k 0) = shioState b s (k + 1) 0 := by
  have hlast : shioState b s k 5 = shioState b s (k + 1) 0 := by rw [shioState, shioRegs, shiftRegs_five]; rfl
  exact (runMicros_take_shioBit hr b hk (Nat.le_refl 5)).trans hlast

theorem microEvents_shioBit {k : Nat} (hk : k < 8) :
    microEvents shioBit (shioState b s k 0) =
      [.read (selectedFeedback s) (shioSample s k), .write .tdi (b.getLsbD k), .write .tck true,
        .write .tck false] := by
  have hfb : feedbackSignal (dispatched b s).fbsel = selectedFeedback s := feedbackSignal_selectedFeedback s
  have hc : (shioRegs b s k 1).c = shioSample s k := rfl
  have hbit : (shioRegs b s k 1).sr.getLsbD 0 = b.getLsbD k := shiftRegs_sr_zero _ _ _ hk (by decide)
  rw [shioBit_eq, shioState, Nat.add_zero, microEvents_sampleFeedback (by simpa using hr.cfgValid)
    (by simpa using hr.oe_eq) (by simpa [hfb] using sigExists_selectedFeedback s), sampledRegs_shioRegs,
    microEvents_shiftBit (.inl rfl), hfb, hc]
  exact congrArg (fun v => [_, PinEvent.write .tdi v, _, _]) hbit

theorem runMicros_shioBits {k : Nat} (hk : k ≤ 8) :
    runMicros (List.replicate k shioBit).flatten (dispatched b s) = shioState b s k 0 := by
  rw [← shioState_zero_zero]
  exact runMicros_iterations (S := fun k => shioState b s k 0) (runMicros_shioBit hr b) hk

/-- `SHIO b` in iteration `k`. -/
theorem runMicros_take_shio {k j : Nat} (hk : k < 8) (hj : j ≤ 5) :
    runMicros ((shioProgram s.cfg).take (s.cfg.haveAs.toNat + 5 * k + j)) (accepted (.shio b) s) =
      shioState b s k j := by
  have htake := take_flatten_replicate shioBit [] hk hj
  rw [List.append_nil, show shioBit.length = 5 from rfl] at htake
  rw [shioProgram_eq, Nat.add_assoc, ← length_dispatchMicros, List.take_length_add_append, htake, runMicros_append,
    runMicros_dispatchMicros hr, runMicros_append, runMicros_shioBits hr b hk.le, runMicros_take_shioBit hr b hk hj]

/-- `SHIO b` after its last micro-step. -/
theorem runMicros_shio : runMicros (shioProgram s.cfg) (accepted (.shio b) s) = shioState b s 7 5 := by
  have hlen : (shioProgram s.cfg).length = 40 + s.cfg.haveAs.toNat := length_programOf (.shio b) s.cfg
  have hall := runMicros_take_shio hr b (k := 7) (j := 5) (by decide) (by decide)
  rwa [List.take_of_length_le (by omega)] at hall

/-- `SHIO b` stopped before its last micro-step. -/
theorem runUpTo_shio_partial {b : Byte} (hc : ClearRun (.shio b) s) {k j : Nat} (hk : k < 8) (hj : j ≤ 5)
    (hlast : 5 * k + j < 40) :
    runUpTo (s.cfg.haveAs.toNat + 5 * k + j) (.shio b) s = .next (shioState b s k j) ∧
      (shioState b s k j).upc.toNat = s.cfg.haveAs.toNat + 5 * k + j := by
  have hrun := runUpTo_partial (by simp) hr hc (n := s.cfg.haveAs.toNat + 5 * k + j) (by simp only [microSteps]; omega)
  rwa [programOf, runMicros_take_shio hr b hk hj] at hrun

end
/-- The state in which `SHIO b` ends. -/
def afterShio (b : Byte) (s : State) : State :=
  { commandFrame (.shio b) s with
    mem := { s.mem with out := shiftLatches s.cfg (shioRegs b s 7 5) s.mem.out }
    sr := shioByte b s
    c := shioSample s 7
    fbsel := decide (selectedFeedback s = .asdo)
    rsp := some (shioByte b s)
    draws := sampleDraws s 8 }

/-- The completion of `SHIO` makes `SR` the response (10_state.md R38). -/
theorem complete_shioState (b : Byte) (s : State) : complete (shioState b s 7 5) = afterShio b s := by
  have hd : decode (shioState b s 7 5).cmd = .command (.shio b) := decode_presentedWord (.shio b) s
  rw [complete, responseOf_shio hd]
  simp [afterShio, shioState, shioRegs_seven_five, withShift, dispatched, accepted, loadCommand, commandFrame, passEdge,
    microSteps, Nat.add_comm, Nat.add_left_comm]

section
variable {b : Byte} {s : State} (hr : Ready s) (hc : ClearRun (.shio b) s)
include hr hc

theorem exec_shio : exec (.shio b) s = .next (afterShio b s) := by
  rw [exec_clear (by simp) hr hc, programOf, runMicros_shio hr, complete_shioState]

/-- `SHIO b` at each of its micro-steps, the last one, which completes it, among them. -/
theorem runUpTo_shio {k j : Nat} (hk : k < 8) (hj : j ≤ 5) :
    ∃ busy upc rsp, runUpTo (s.cfg.haveAs.toNat + 5 * k + j) (.shio b) s =
        .next { shioState b s k j with busy := busy, upc := upc, rsp := rsp } ∧
      busy = decide (5 * k + j < 40) ∧
      upc.toNat = if 5 * k + j < 40 then s.cfg.haveAs.toNat + 5 * k + j else 0 := by
  by_cases hlast : 5 * k + j < 40
  · obtain ⟨hrun, hupc⟩ := runUpTo_shio_partial hr hc hk hj hlast
    exact ⟨true, _, _, hrun, by simpa using hlast, hupc.trans (if_pos hlast).symm⟩
  · obtain ⟨rfl, rfl⟩ : k = 7 ∧ j = 5 := by omega
    have hrun := runUpTo_whole (by simp) hr hc 0
    rw [programOf, runMicros_shio hr, microSteps] at hrun
    have hcount : s.cfg.haveAs.toNat + 5 * 7 + 5 = 40 + s.cfg.haveAs.toNat + 0 := by omega
    exact ⟨false, 0, _, hcount ▸ hrun, rfl, rfl⟩

theorem commandTrace_shio :
    commandTrace (.shio b) s =
      (if s.cfg.haveAs then [PinEvent.read .ncs (s.mem.out.at (pin s.cfg .ncs))] else []) ++
        (List.range 8).flatMap fun k =>
          [.read (selectedFeedback s) (shioSample s k), .write .tdi (b.getLsbD k), .write .tck true,
            .write .tck false] := by
  have hbits := microEvents_iterations (S := fun k => shioState b s k 0) (runMicros_shioBit hr b)
    (fun _ => microEvents_shioBit hr b) (Nat.le_refl 8)
  rw [shioState_zero_zero] at hbits
  rw [commandTrace_clear (by simp) hr hc, programOf, shioProgram_eq, microEvents_append, microEvents_dispatchMicros hr,
    runMicros_dispatchMicros hr, hbits]

end

/-- Settles O26: after eight iterations `SR` holds the samples, bit 7 of `b` stands on TDI and the clock is low. -/
theorem shioResult : Obligations.ShioResult := by
  intro b s hr hc
  have hlatches := shiftLatches_of_ready hr (shioRegs b s 7 5)
  rw [shioRegs_seven_five] at hlatches
  exact ⟨_, shioByte b s, exec_shio hr hc, fun _ => getLsbD_shioByte b s, shioRegs_seven_five b s ▸ hlatches⟩

/-- Settles O27: every sample is the level applied, and none floats. -/
theorem shioReturnsTheExternalPattern : Obligations.ShioReturnsTheExternalPattern := by
  intro b p s hr hc hext
  have hbyte : shioByte b s = p := BitVec.eq_of_getLsbD_eq fun k hk => by
    rw [getLsbD_shioByte b s hk, shioSample_eq, sampleOf, hext k hk, Option.getD_some]
  have hdraws : ∀ k, k ≤ 8 → sampleDraws s k = s.draws := by
    intro k hk
    induction k with
    | zero => rfl
    | succ k ih => rw [sampleDraws_succ, ih (by omega), floats, hext k hk]; rfl
  exact ⟨_, exec_shio hr hc, congrArg some hbyte, hdraws 8 (Nat.le_refl 8)⟩

/-- In loopback sample `k` is the bit presented in the iteration before, the level of TDI at acceptance for `k = 0`: the
sample stands before the present micro-step (R128, R129). -/
theorem shioSample_of_loopedBack {b : Byte} {s : State} (hr : Ready s) (hc : ClearRun (.shio b) s)
    (hloop : LoopedBack b s) {k : Nat} (hk : k < 8) :
    shioSample s k = latest b.getLsbD (s.mem.out.at (pin s.cfg .tdi)) k := by
  obtain ⟨hrun, -⟩ := runUpTo_shio_partial hr hc hk (Nat.zero_le 5) (by omega)
  have hext := hloop k hk _ hrun
  have htdi : (shioState b s k 0).mem.out.at (pin s.cfg .tdi) = latest b.getLsbD (s.mem.out.at (pin s.cfg .tdi)) k := by
    obtain ⟨-, htdi, -⟩ := shiftLatches_of_ready hr (shioRegs b s k 0)
    rw [shioState_mem]
    exact htdi
  rw [inputAt_shioState, htdi] at hext
  rw [shioSample_eq, sampleOf, hext, Option.getD_some]

/-- A byte delayed by one bit position, as a number. -/
theorem extractLsb'_append_ofBool (b : Byte) (d : Bool) :
    b.extractLsb' 0 7 ++ BitVec.ofBool d = BitVec.ofNat 8 (2 * b.toNat + d.toNat) := by
  apply BitVec.eq_of_toNat_eq
  have hd : d.toNat < 2 ^ 1 := Bool.toNat_lt d
  rw [BitVec.toNat_append, BitVec.toNat_ofBool, ← Nat.shiftLeft_add_eq_or_of_lt hd, Nat.shiftLeft_eq,
    BitVec.extractLsb'_toNat, BitVec.toNat_ofNat, Nat.shiftRight_zero]
  omega

/-- Settles O28: `SR` holds the samples, and sample `k` is the bit presented before it. -/
theorem shioLoopbackSkew : Obligations.ShioLoopbackSkew := by
  intro b s hr hc hloop
  have hbyte : shioByte b s = b.extractLsb' 0 7 ++ BitVec.ofBool (s.mem.out.at (pin s.cfg .tdi)) :=
    BitVec.eq_of_getLsbD_eq fun k hk => by
      rw [getLsbD_shioByte b s hk, shioSample_of_loopedBack hr hc hloop hk, BitVec.getLsbD_append]
      cases k with
      | zero => simp [latest]
      | succ k => simp [latest]; omega
  obtain ⟨-, htdi, -⟩ := shiftLatches_of_ready hr (shioRegs b s 7 5)
  have hrsp : (afterShio b s).rsp = some (shioByte b s) := rfl
  exact ⟨_, exec_shio hr hc, by rw [hrsp, hbyte], by rw [hrsp, hbyte, extractLsb'_append_ofBool], htdi⟩

/-- Bit `k` stands on TDI from the second micro-step of iteration `k` on. -/
theorem shioRegs_tdi (b : Byte) (s : State) (k j : Nat) : (shioRegs b s k j).tdi =
    if 2 ≤ j then b.getLsbD k else if k = 0 then s.mem.out.at (pin s.cfg .tdi) else b.getLsbD (k - 1) := by
  by_cases h : 2 ≤ j
  · simp [shioRegs, shiftRegs, startRegs, latest, h]
  · cases k <;> simp [shioRegs, shiftRegs, startRegs, latest, h]

theorem shioRegs_c (b : Byte) (s : State) (k : Nat) {j : Nat} (hj : 1 ≤ j) :
    (shioRegs b s k j).c = shioSample s k := by
  simp [shioRegs, shiftRegs, latest, hj]

/-- Settles O29: the registers after `j` micro-steps of iteration `k` are `shioRegs b s k j`; nothing else is written. -/
theorem shioPinsAtEachMicroStep : Obligations.ShioPinsAtEachMicroStep := by
  intro b s k j hr hc hk h1 h5
  obtain ⟨busy, upc, rsp, hrun, hbusy, hupc⟩ := runUpTo_shio hr hc hk h5
  obtain ⟨-, htdi, htck, hother⟩ := shiftLatches_of_ready hr (shioRegs b s k j)
  refine ⟨_, hrun, by simp, by simp, by simp, by simp, rfl, hbusy, hupc, rfl, shioRegs_c b s k h1,
    fun m hm => getLsbD_shiftedByte b (shioSample s) _ hm, ?_⟩
  rw [shioState_mem]
  exact ⟨htdi.trans (shioRegs_tdi b s k j), htck, hother⟩

/-- Settles O30: the dispatch reads nCS; each iteration reads the selected pin, writes TDI once and TCK twice. -/
theorem shioPinEvents : Obligations.ShioPinEvents := fun _ _ hr hc => commandTrace_shio hr hc

/-! ### Clock edges -/

/-- The pin events `es` are one clock pulse: TCK is raised, unless it is high, and lowered (R123). -/
def OneClockPulse (es : List PinEvent) : Prop :=
  ∀ (level : Bool) (rest : List PinEvent),
    risingEdges level (es ++ rest) = (!level).toNat + risingEdges false rest ∧
    fallingEdges level (es ++ rest) = 1 + fallingEdges false rest

theorem oneClockPulse_shout (v : Bool) : OneClockPulse [.write .tdi v, .write .tck true, .write .tck false] := by
  intro level rest
  cases level <;> simp [risingEdges, fallingEdges]

theorem oneClockPulse_shio (g : Signal) (x v : Bool) :
    OneClockPulse [.read g x, .write .tdi v, .write .tck true, .write .tck false] := by
  intro level rest
  cases level <;> simp [risingEdges, fallingEdges]

/-- From a low clock every pulse makes one edge of each kind. -/
theorem edges_of_pulses {E : Nat → List PinEvent} (hE : ∀ k, OneClockPulse (E k)) (ks : List Nat) :
    risingEdges false (ks.flatMap E) = ks.length ∧ fallingEdges false (ks.flatMap E) = ks.length := by
  induction ks with
  | nil => exact ⟨rfl, rfl⟩
  | cons k ks ih =>
    rw [List.flatMap_cons, (hE k false _).1, (hE k false _).2, ih.1, ih.2, List.length_cons]
    exact ⟨Nat.add_comm .., Nat.add_comm ..⟩

/-- Eight pulses, the first of which raises a low clock only. -/
theorem edges_of_eight_pulses {E : Nat → List PinEvent} (hE : ∀ k, OneClockPulse (E k)) (level : Bool) :
    risingEdges level ((List.range 8).flatMap E) = (!level).toNat + 7 ∧
      fallingEdges level ((List.range 8).flatMap E) = 8 := by
  rw [List.range_succ_eq_map, List.flatMap_cons, (hE 0 level _).1, (hE 0 level _).2, (edges_of_pulses hE _).1,
    (edges_of_pulses hE _).2, List.length_map, List.length_range]
  exact ⟨rfl, rfl⟩

/-- The trace of a shift command is eight pulses, after a read of nCS perhaps. -/
theorem edges_of_shift {b : Byte} {i : Instr} {s : State} (hi : i = .shout b ∨ i = .shio b) (hr : Ready s)
    (hc : ClearRun i s) (level : Bool) :
    risingEdges level (commandTrace i s) = (!level).toNat + 7 ∧ fallingEdges level (commandTrace i s) = 8 := by
  obtain rfl | rfl := hi
  · rw [shoutPinEvents b s hr hc]
    exact edges_of_eight_pulses (fun k => oneClockPulse_shout _) level
  · have hpulses := edges_of_eight_pulses
      (fun k => oneClockPulse_shio (selectedFeedback s) (shioSample s k) (b.getLsbD k)) level
    rw [commandTrace_shio hr hc]
    split
    · simpa [risingEdges, fallingEdges] using hpulses
    · exact hpulses

/-- Settles O25: the first of the eight pulses makes no rising edge if the clock is high. -/
theorem clockEdgesOfAShift : Obligations.ClockEdgesOfAShift :=
  fun _ _ _ hi hr hc => ⟨fun _ => edges_of_shift hi hr hc false, fun _ => edges_of_shift hi hr hc true⟩

end Sys2Proof.Machine
end

section
/-! PROOFS. The Mode Dispatcher (43_mode_dispatcher.md): what the dispatch micro-step writes and where it stands, and how the
latest output word selects the feedback of the `SHIO` that follows it. -/

namespace Sys2Proof.Machine

/-! ### The dispatch micro-step -/

/-- A `SigRead` changes the count of free values and nothing else (20_memory.md R58, R60). -/
theorem sigRead_state_eq (e : EdgeInput) (g : Signal) (s : State) :
    (sigRead e g s).2 = { s with draws := (sigRead e g s).2.draws } := by
  by_cases hg : sigExists s.cfg g = true
  · rw [sigRead_present hg]
    by_cases hoe : s.mem.oe.at (pin s.cfg g) = true
    · rw [memRead_driven hoe]
    · rw [memRead_undriven (by simpa using hoe)]
  · rw [sigRead_absent (by simpa using hg)]

theorem perform_dispatch (e : EdgeInput) (s : State) :
    perform .dispatch e s =
      { s with fbsel := fbselOf (sigRead e .ncs s).1, draws := (sigRead e .ncs s).2.draws } := by
  rw [perform, sigRead_state_eq]

theorem fbselOf_eq_decide (ncsLevel : Bool) : fbselOf ncsLevel = decide (ncsLevel = false) := by
  cases ncsLevel <;> rfl

/-- The writes of the Output State Word are no dispatch. -/
theorem dispatch_not_mem_setoutProgram (cfg : Cfg) : Micro.dispatch ∉ setoutProgram cfg := by
  simp [setoutProgram_eq_map, wordWrite]

/-- The iterations of `SHIO` hold no dispatch. -/
theorem dispatch_not_mem_shioBits : Micro.dispatch ∉ (List.replicate 8 shioBit).flatten := by decide

/-- Of the five commands `SHIO` alone may hold a dispatch (R141). -/
theorem eq_shio_of_dispatch_mem {i : Instr} {cfg : Cfg} (hm : Micro.dispatch ∈ programOf i cfg) : ∃ b, i = .shio b := by
  cases i with
  | init => exact absurd hm (by simp [programOf, initProgram])
  | setout w => exact absurd hm (dispatch_not_mem_setoutProgram cfg)
  | setrd w =>
    exact absurd hm (by simp [programOf, setrdProgram, dispatch_not_mem_setoutProgram])
  | shout b => exact absurd hm (by decide : Micro.dispatch ∉ shoutProgram)
  | shio b => exact ⟨b, rfl⟩

/-- In `SHIO` the dispatch stands first, with AS-mode only (R140, R141). -/
theorem shioProgram_getElem?_eq_dispatch_iff (cfg : Cfg) (n : Nat) :
    (shioProgram cfg)[n]? = some .dispatch ↔ n = 0 ∧ cfg.haveAs = true := by
  have hbits : ∀ k, (List.replicate 8 shioBit).flatten[k]? ≠ some Micro.dispatch :=
    fun _ h => dispatch_not_mem_shioBits (List.mem_of_getElem? h)
  rw [shioProgram_eq]
  cases has : cfg.haveAs with
  | false => simpa [dispatchMicros, has] using hbits n
  | true =>
    cases n with
    | zero => simp [dispatchMicros, has]
    | succ k => simpa [dispatchMicros, has] using hbits k

/-- Settles O31: the dispatch is a read of nCS and a write of `FBSEL`; only the program of `SHIO` has it, at its head. -/
theorem dispatchSelectsTheFeedback : Obligations.DispatchSelectsTheFeedback := by
  refine ⟨fun e s => ?_, fun i cfg n => ⟨fun h => ?_, ?_⟩⟩
  · rw [perform_dispatch, fbselOf_eq_decide]
    exact ⟨rfl, rfl, rfl⟩
  · obtain ⟨b, rfl⟩ := eq_shio_of_dispatch_mem (List.mem_of_getElem? h)
    obtain ⟨hn, has⟩ := (shioProgram_getElem?_eq_dispatch_iff cfg n).1 h
    exact ⟨hn, has, b, rfl⟩
  · rintro ⟨hn, has, b, rfl⟩
    exact (shioProgram_getElem?_eq_dispatch_iff cfg n).2 ⟨hn, has⟩

/-! ### The state after the latest output word -/

/-- What both writers of the output word leave to the command that follows: CORE ready under the same configuration, the
latches as the word says, the directions and the outside's script as they were (41_state_port.md R111, R114). -/
structure WroteWord (i : Instr) (w : StateWord) (s t : State) : Prop where
  ready : Ready t
  cfg : t.cfg = s.cfg
  mem : t.mem = { s.mem with out := wordLatches s.cfg w (writtenSignals s.cfg) s.mem.out }
  env : t.env = s.env.drop (1 + microSteps s.cfg i)

theorem wroteWord_afterSetout {s : State} (hr : Ready s) (w : StateWord) :
    WroteWord (.setout w) w s (afterSetout w s) where
  ready := ready_afterSetout hr w
  cfg := afterSetout_cfg w s
  mem := afterSetout_mem w s
  env := rfl

/-- CORE is ready again after `SETRD`: beside latches it has written transients only. -/
theorem ready_afterSetrd {s : State} (hr : Ready s) (w : StateWord) : Ready (afterSetrd w s) := by
  obtain ⟨⟨hv, ⟨hout, hoe⟩, -⟩, hi⟩ := hr
  refine ⟨⟨?_, ⟨?_, ?_⟩, rfl⟩, ?_⟩
  · simpa [afterSetrd, commandFrame] using hv
  · simpa [afterSetrd, commandFrame] using hout
  · simpa [afterSetrd, commandFrame] using hoe
  · simpa [afterSetrd, commandFrame, initialised] using hi

theorem wroteWord_afterSetrd {s : State} (hr : Ready s) (w : StateWord) :
    WroteWord (.setrd w) w s (afterSetrd w s) where
  ready := ready_afterSetrd hr w
  cfg := by simp [afterSetrd, commandFrame]
  mem := rfl
  env := rfl

/-- Either writer completes under clear edges. -/
theorem exec_wroteWord {i : Instr} {w : StateWord} (hi : i = .setout w ∨ i = .setrd w) {s : State} (hr : Ready s)
    (hc : ClearFor (1 + microSteps s.cfg i) s) : ∃ t, exec i s = .next t ∧ WroteWord i w s t := by
  obtain rfl | rfl := hi
  · exact ⟨_, exec_setout hr hc, wroteWord_afterSetout hr w⟩
  · exact ⟨_, exec_setrd hr hc, wroteWord_afterSetrd hr w⟩

section
variable {i : Instr} {w : StateWord} {s t : State} (ht : WroteWord i w s t)
include ht

/-- The clock edges of a `SHIO` that follows are those after the writer's. -/
theorem WroteWord.clearRun_shio {b : Byte}
    (hc : ClearFor (2 + microSteps s.cfg i + microSteps s.cfg (.shio b)) s) : ClearRun (.shio b) t := by
  intro k hk
  have hinput : inputAt t k = inputAt s (1 + microSteps s.cfg i + k) := by simp [inputAt, ht.env]
  rw [ht.cfg] at hk
  rw [ht.mem, hinput]
  exact hc _ (by omega)

/-- With AS-mode the latch of nCS is bit 3 of the word (R142). -/
theorem WroteWord.ncs (hr : Ready s) (has : s.cfg.haveAs = true) : t.mem.out.at (pin t.cfg .ncs) = w.getLsbD 3 := by
  have hmem : (Signal.ncs, 3) ∈ writtenSignals s.cfg := by simp [writtenSignals, wordSignals, sigExists, has]
  rw [ht.mem, ht.cfg]
  exact wordLatches_at_pin hr.cfgValid (List.Subset.refl _) hmem w hr.length_out

/-- The word selects the feedback: ASDO with AS-mode and its bit 3 at 0, else TDO (R142, R145). -/
theorem WroteWord.selectedFeedback_eq (hr : Ready s) :
    selectedFeedback t = if s.cfg.haveAs = true ∧ w.getLsbD 3 = false then .asdo else .tdo := by
  cases has : s.cfg.haveAs with
  | false => simp [selectedFeedback, ht.cfg, has]
  | true =>
    rw [selectedFeedback, ht.ncs hr has, ht.cfg, has]
    simp

end

/-- The trace of a `SHIO` with its samples written as the bits of the response. -/
theorem commandTrace_shio_response {b : Byte} {s : State} (hr : Ready s) (hc : ClearRun (.shio b) s) :
    commandTrace (.shio b) s =
      (if s.cfg.haveAs then [PinEvent.read .ncs (s.mem.out.at (pin s.cfg .ncs))] else []) ++
        (List.range 8).flatMap fun k =>
          [.read (selectedFeedback s) ((shioByte b s).getLsbD k), .write .tdi (b.getLsbD k), .write .tck true,
            .write .tck false] := by
  rw [commandTrace_shio hr hc]
  congr 1
  refine List.flatMap_congr fun k hk => ?_
  rw [getLsbD_shioByte b s (List.mem_range.1 hk)]

/-- Settles O32: the writer leaves bit 3 of the word on nCS, and the `SHIO` in that state selects by nCS. -/
theorem outputWordSelectsTheFeedback : Obligations.OutputWordSelectsTheFeedback := by
  intro i w b s hi hr hc
  obtain ⟨t, hexec, ht⟩ := exec_wroteWord hi hr fun k hk => hc k (by omega)
  have hshio := ht.clearRun_shio hc
  have hncs : (if t.cfg.haveAs then [PinEvent.read .ncs (t.mem.out.at (pin t.cfg .ncs))] else []) =
      if s.cfg.haveAs then [PinEvent.read .ncs (w.getLsbD 3)] else [] := by
    rw [congrArg Cfg.haveAs ht.cfg]
    split
    case isTrue has => rw [ht.ncs hr has]
    case isFalse => rfl
  exact ⟨t, afterShio b t, selectedFeedback t, shioByte b t, ht.selectedFeedback_eq hr,
    ht.cfg ▸ sigExists_selectedFeedback t, hexec, exec_shio ht.ready hshio, rfl, rfl,
    hncs ▸ commandTrace_shio_response ht.ready hshio⟩

end Sys2Proof.Machine
end

section
/-! PROOFS. No exceptions (60_exceptions.md): an idle clock edge holds every register, and `rst`, the one event that ends
a command early, wins at every clock edge. -/

namespace Sys2Proof.Machine

/-! ### An idle clock edge -/

theorem step_of_no_command {s : State} (hb : s.busy = false) (hw : s.cmds = []) : step s = idleEdge s := by
  simp [step, hb, hw]

/-- Settles O7: with no command presented a step is an idle clock edge, whose only effect is that the edge has passed. -/
theorem idleEdgeHoldsEveryRegister : Obligations.IdleEdgeHoldsEveryRegister := by
  rintro s ⟨hv, -, hb⟩ hw hc
  rw [step_of_no_command hb hw]
  exact atEdge_clear hv hc

/-! ### Reset wins -/

theorem runUpTo_cfg {n : Nat} {i : Instr} {s u : State} (h : runUpTo n i s = .next u) : u.cfg = s.cfg :=
  (cfg_keptAtEveryEdge s.cfg).of_runUpTo rfl h

/-- A run that has come to a state began in a valid configuration: its acceptance was a clock edge. -/
theorem valid_of_runUpTo {n : Nat} {i : Instr} {s u : State} (h : runUpTo n i s = .next u) : valid s.cfg = true := by
  unfold runUpTo at h
  split at h
  case isTrue => cases h
  case isFalse => simpa using (atEdge_next h).1

section
variable {s : State} (hv : valid s.cfg = true) (hc : contends s.mem.oe (inputAt s 0) = false)
  (hr : (inputAt s 0).rst = true)
include hv hc hr

/-- A step at an `rst` is the reset event, on the queue without the word presented. -/
theorem step_rst : step s = .next (resetEvent { s with cmds := edgeQueue s }) := by
  obtain ⟨act, h⟩ := step_eq_atEdge s
  exact h.trans (atEdge_rst hv hc hr)

/-- A command with an `rst` at its acceptance is the reset event. -/
theorem exec_rst (hb : s.busy = false) (i : Instr) : exec i s = .next (resetEvent (takePresented i s)) := by
  obtain ⟨act, h⟩ := exec_eq_atEdge hb i
  exact h.trans (atEdge_rst (by simpa using hv) (by simpa using hc) (by simpa using hr))

end

/-- A command with an `rst` at the edge of its next micro-step ends there, in the reset event. -/
theorem exec_rst_at_micro {i : Instr} {s u : State} {n : Nat} (hn : n < longestProgram)
    (h : runUpTo n i s = .next u) (hb : u.busy = true) (hc : contends u.mem.oe (inputAt u 0) = false)
    (hr : (inputAt u 0).rst = true) : exec i s = .next (resetEvent u) := by
  have hv : valid u.cfg = true := by rw [runUpTo_cfg h]; exact valid_of_runUpTo h
  have hreset : runUpTo (n + 1) i s = .next (resetEvent u) := by
    rw [runUpTo_succ_of_busy h hb, step_of_busy hb]
    exact atEdge_rst hv hc hr
  rw [exec_eq_runCommand, ← Nat.add_sub_of_le hn]
  exact runUpTo_add_of_idle hreset rfl _

/-- Settles O38: over a step, over acceptance, and over each micro-step of a command, by the reset event, whose
unspecified registers are the free values of its draw. -/
theorem resetWinsAndLosesTheCommand : Obligations.ResetWinsAndLosesTheCommand := by
  refine ⟨fun s hv hc hr => ?step, fun i s hv hb hc hr => ?acceptance, fun i s u n hn h hb hc hr => ?micro⟩
  case step => exact ⟨.free s.draws, step_rst hv hc hr⟩
  case acceptance => exact ⟨.free s.draws, by rw [exec_rst hv hc hr hb]; simp [resetEvent]⟩
  case micro => exact ⟨.free u.draws, by rw [exec_rst_at_micro hn h hb hc hr, resetEvent, runUpTo_cfg h]⟩

end Sys2Proof.Machine
end

section
/-! PROOFS. Reset and hazards (70_reset_and_hazards.md): every admitted command completes in its micro-steps, only `INIT` is
admitted before `INIT`, and a busy sequencer never stops by itself. -/

namespace Sys2Proof.Machine

/-! ### Completion -/

/-- A command that has completed after the micro-steps of its own count has completed as a whole. -/
theorem exec_of_runUpTo_microSteps {i : Instr} {s t : State} (h : runUpTo (microSteps s.cfg i) i s = .next t)
    (hb : t.busy = false) : exec i s = .next t := by
  rw [exec_eq_runCommand, ← Nat.add_sub_of_le (microSteps_le_longest s.cfg i)]
  exact runUpTo_add_of_idle h hb _

/-- One clock edge has passed for the acceptance. -/
@[simp] theorem accepted_env (i : Instr) (s : State) : (accepted i s).env = s.env.tail := by simp [accepted]

/-- The clock edges of a command: its acceptance, then `n` micro-steps. -/
theorem drop_accepted_env (i : Instr) (s : State) (n : Nat) : (accepted i s).env.drop n = s.env.drop (1 + n) := by
  rw [accepted_env, ← List.drop_one, List.drop_drop]

/-- The script at the end of a whole command other than `INIT`. -/
theorem runMicros_programOf_env (i : Instr) (s : State) :
    (runMicros (programOf i s.cfg) (accepted i s)).env = s.env.drop (1 + microSteps s.cfg i) := by
  rw [runMicros_env, length_programOf, drop_accepted_env]

/-- Settles O12: `INIT` by its states after each number of micro-steps, any other command by the run of its program, in which
no micro-step moves `BUSY`. -/
theorem everyCommandCompletesInItsMicroSteps : Obligations.EveryCommandCompletesInItsMicroSteps := by
  rintro i s ⟨hv, hw, hb⟩ hadm hc
  refine ⟨microSteps_le_longest s.cfg i, ?_⟩
  by_cases hi : i = .init
  · subst hi
    have hlast := runUpTo_init hv hb hc (Nat.le_refl 5)
    refine ⟨fun n hn => ?_, initMicros 5 (accepted .init s), hlast, exec_of_runUpTo_microSteps hlast rfl, rfl, rfl,
      drop_accepted_env .init s 5⟩
    exact ⟨_, runUpTo_init hv hb hc (Nat.le_of_lt hn), decide_eq_true hn, initMicros_upc_toNat hn _⟩
  · have hr : Ready s := ⟨⟨hv, hw, hb⟩, hadm.resolve_left hi⟩
    have hlast := runUpTo_whole hi hr hc 0
    refine ⟨fun n hn => ?_, _, hlast, exec_of_runUpTo_microSteps hlast rfl, rfl, rfl, runMicros_programOf_env i s⟩
    obtain ⟨hrun, hupc⟩ := runUpTo_partial hi hr hc hn
    exact ⟨_, hrun, by rw [runMicros_busy]; rfl, hupc⟩

/-! ### Before `INIT` -/

/-- Admission reads only registers that neither the queue nor the edge's passing changes. -/
@[simp] theorem admitted_passEdge_takePresented (i : Instr) (s : State) :
    admitted i (passEdge (takePresented i s)) = admitted i s := by
  cases i <;> simp [admitted, initialised]

/-- At a clear edge an idle CORE refuses a command it does not admit. -/
theorem exec_not_admitted {i : Instr} {s : State} (hv : valid s.cfg = true) (hb : s.busy = false)
    (hc : EdgeClear s.mem.oe (inputAt s 0)) (ha : admitted i s = false) : exec i s = .refused .notInitialised := by
  rw [exec_eq_runCommand, runUpTo, if_neg (by simp [hb]), atEdge_clear (by simpa using hv) (by simpa using hc)]
  simp [ha]

/-- A command other than `INIT` needs an Initialised state. -/
theorem not_admitted {i : Instr} (hi : i ≠ .init) {s : State} (h : initialised s = false) : admitted i s = false := by
  simp [Bool.eq_false_iff, admitted_iff, hi, h]

/-- Where the outside's script has ended, every clock edge is clear. -/
theorem edgeClear_quiet (oe : Levels) : EdgeClear oe EdgeInput.quiet :=
  ⟨rfl, by simp [EdgeInput.quiet, contends]⟩

/-- The reset state has an empty script. -/
theorem edgeClear_resetOf (oe : Levels) (cfg : Cfg) (u : PowerOn) (k : Nat) :
    EdgeClear oe (inputAt (State.resetOf cfg u) k) := edgeClear_quiet oe

theorem initialised_resetOf {cfg : Cfg} (hv : valid cfg = true) (u : PowerOn) :
    initialised (State.resetOf cfg u) = false := by
  obtain ⟨-, -, -, -, -, hinit⟩ := stateAfterReset cfg u
  exact hinit hv

/-- Settles O42: acceptance refuses every command but `INIT`, and the fifth micro-step of `INIT` makes CORE Initialised. -/
theorem onlyInitIsAdmittedBeforeInit : Obligations.OnlyInitIsAdmittedBeforeInit := by
  refine ⟨?idle, fun i cfg u hi hv => ?afterReset, fun cfg u hv => ?init⟩
  case idle =>
    rintro i s hi ⟨hv, -, hb⟩ hn hc
    exact exec_not_admitted hv hb hc (not_admitted hi hn)
  case afterReset =>
    exact exec_not_admitted hv rfl (edgeClear_resetOf _ cfg u 0) (not_admitted hi (initialised_resetOf hv u))
  case init =>
    have hc : ClearForInit (State.resetOf cfg u) :=
      ⟨fun k _ => edgeClear_resetOf _ cfg u k, fun k _ _ => edgeClear_resetOf _ cfg u k⟩
    exact ⟨_, exec_of_runUpTo_microSteps (runUpTo_init hv rfl hc (Nat.le_refl 5)) rfl, initialised_initMicros_five _⟩

/-! ### While busy -/

/-- Settles O43: the next clock edge is a reset, or a micro-step, since `upc` lies in the running micro-program. -/
theorem busySequencerAlwaysMoves : Obligations.BusySequencerAlwaysMoves := by
  intro s hinv hb hc
  rw [step_of_busy hb]
  cases hr : (inputAt s 0).rst with
  | true => exact ⟨_, atEdge_rst hinv.cfgValid hc hr⟩
  | false => exact ⟨_, seqStep_clear hinv.cfgValid ⟨hr, hc⟩ (List.getElem?_eq_getElem (hinv.busyPosition hb))⟩

end Sys2Proof.Machine
end
